-- ==== Sys2Proof/Config.lean ====
section
/-! DEFINITION. What an instance of the block fixes: the configuration registers CFG0, CFG1, CFG2
(spec/10_state.md R29) with its well-formedness predicates (spec/00_scope.md R9), and the open parameter
SINK_FAIL_POLICY (R10). The open parameters NUM and EPS_UNIT stand in Machine/Numerics.lean and
Machine/NumMachine.lean. -/

namespace Sys2Proof

/-- SINK_FAIL_POLICY (R10): what the engine does when the sink reports a failure. -/
inductive SinkFailPolicy where
  /-- CONTINUE (R185), the spec's default. -/
  | continueSymbol
  /-- HALT (R186). -/
  | haltSymbol
deriving DecidableEq, Repr

/-- The configuration of one instance (R7, R29), with the policy parameter of R10.
`bw` is rational by R7 (D4); `sf` and `fs` are the integers of R7. -/
structure Config where
  /-- CFG0 = BW, the bandwidth in Hz. -/
  bw : Rat
  /-- CFG1 = SF, the spreading factor. -/
  sf : Nat
  /-- CFG2 = FS, the sample rate in Hz. -/
  fs : Nat
  /-- SINK_FAIL_POLICY. -/
  sinkFail : SinkFailPolicy
deriving DecidableEq, Repr

/-- CfgWF of R9: all positive. -/
abbrev Config.WF (c : Config) : Prop := 0 < c.bw ∧ 1 ≤ c.sf ∧ 1 ≤ c.fs

/-- CfgValid of R9: well-formed and FS ≥ BW. -/
abbrev Config.Valid (c : Config) : Prop := c.WF ∧ c.bw ≤ c.fs

/-- CfgNonNegFreq of R9: well-formed and 2 × BW ≤ FS. -/
abbrev Config.NonNegFreq (c : Config) : Prop := c.WF ∧ 2 * c.bw ≤ c.fs

/-- VALUE_BITS of R10: the width of the `value` field of the command word. -/
abbrev Config.valueBits : Nat := 24

/-- The configuration of the document's concrete scenario (spec/95_test_vectors.md V1).
DESIGN CHOICE (log entry 1), unsafe: the spec gives the configuration no default (R7), so the launch state
`State.reset` holds this one; every statement is about all configurations. -/
def Config.documentExample : Config :=
  { bw := 125000, sf := 8, fs := 1000000, sinkFail := .continueSymbol }

end Sys2Proof
end

