-- ==== Sys2Proof/Syntax.lean ====
section
/-! DEFINITION. The host's commands as data (spec/30_encoding.md R70) and the pseudo-commands with their
expansion (R78, spec/43_synth.md R158). -/

namespace Sys2Proof

/-- Cmd of R70: one constructor per row of spec/opcode_table.json. -/
inductive Instr where
  /-- RESET: (re)initialise the phase (R120). -/
  | reset
  /-- SYNTH value, inv: synthesize one symbol (R150); every integer value is admitted (R70, D18). -/
  | synth (value : Int) (inv : Bool)
deriving DecidableEq, Repr

/-- The pseudo-commands of R78. -/
inductive Pseudo where
  /-- UPCHIRP value, the forward chirp. -/
  | upchirp (value : Int)
  /-- DNCHIRP value, the reverse chirp. -/
  | dnchirp (value : Int)
deriving DecidableEq, Repr

end Sys2Proof
end

