-- ==== Sys2Proof/WellFormed.lean ====
section
/-! DEFINITION. Which commands the 32-bit word can carry (spec/30_encoding.md R70, R76): the abstract
command admits every integer value, the word only 0 ≤ value < 2^24. -/

namespace Sys2Proof

/-- A command is well-formed when `encode` of R76 has a word for it. -/
def Instr.wellFormed : Instr → Bool
  | .reset => true
  | .synth value _ => decide (0 ≤ value) && decide (value < 2 ^ Config.valueBits)

end Sys2Proof
end

