-- ==== Sys2Proof/Word.lean ====
section
/-! DEFINITION. The command word (spec/30_encoding.md R71): one 32-bit unit, bit 0 the least significant
(spec/00_scope.md R12). Nothing else in the block is a bit pattern: its registers are numbers. -/

namespace Sys2Proof

/-- The 32-bit command word of R71. -/
abbrev Word32 := BitVec 32

end Sys2Proof
end

