-- ==== Sys2Proof/Decode.lean ====
section
/-! DEFINITION. The command word's decoder, total on every word, and its encoder (spec/30_encoding.md R71 to
R76), with the opcode map of R73 as data and the expansion of the pseudo-commands (R78). -/

namespace Sys2Proof

/-- The three classes of reserved words R74 lists. -/
inductive Reserved where
  /-- `op` in 0x0, 0x3, …, 0xF. -/
  | opcode
  /-- `op` = 0x1 with any of w[27:0] set. -/
  | resetOperand
  /-- `op` = 0x2 with any of w[27:25] set. -/
  | synthZeroField
deriving DecidableEq, Repr

/-- The decoder's answer of R76: a command, or `invalid` with the class of R74. -/
inductive Decoded where
  | command (i : Instr)
  | invalid (why : Reserved)
deriving DecidableEq, Repr

/-- The command a decoder's answer holds, if any. -/
def Decoded.instr? : Decoded → Option Instr
  | .command i => some i
  | .invalid _ => none

/-- `op` = w[31:28] (R71). -/
def opField (w : Word32) : BitVec 4 := w.extractLsb' 28 4

/-- w[31:25], `op` followed by the must-be-zero field of format C1 (R71). -/
def synthRowField (w : Word32) : BitVec 7 := w.extractLsb' 25 7

/-- `value` = zext(w[23:0]) (R72). -/
def valueField (w : Word32) : Int := ((w.extractLsb' 0 24).toNat : Int)

/-- `inv` = (w[24] = 1) (R72). -/
def invField (w : Word32) : Bool := w.getLsbD 24

/-- The class of R74 a word that spells no command belongs to. -/
def reservedClass (w : Word32) : Reserved :=
  if opField w = 0x1#4 then .resetOperand
  else if opField w = 0x2#4 then .synthZeroField
  else .opcode

/-- `decode` of R76. -/
def decode (w : Word32) : Decoded :=
  if w = 0x10000000#32 then .command .reset
  else if synthRowField w = 0b0010000#7 then .command (.synth (valueField w) (invField w))
  else .invalid (reservedClass w)

/-- `encode` of R76; `none` is `unencodable`. -/
def encode : Instr → Option Word32
  | .reset => some 0x10000000#32
  | .synth value inv =>
    if 0 ≤ value ∧ value < 2 ^ Config.valueBits then
      some (0x20000000#32 + (if inv then 0x01000000#32 else 0#32) + BitVec.ofInt 32 value)
    else none

/-- One row of the opcode map of R73. -/
structure OpcodeRow where
  mnemonic : String
  pattern : Word32
  mask : Word32
deriving DecidableEq, Repr

/-- The row of RESET (R73). -/
def rowReset : OpcodeRow := { mnemonic := "RESET", pattern := 0x10000000#32, mask := 0xFFFFFFFF#32 }

/-- The row of SYNTH (R73). -/
def rowSynth : OpcodeRow := { mnemonic := "SYNTH", pattern := 0x20000000#32, mask := 0xFE000000#32 }

/-- The opcode map of R73. -/
def opcodeMap : List OpcodeRow := [rowReset, rowSynth]

/-- A word spells a row's command when its masked bits are the row's match (R73). -/
def OpcodeRow.spells (r : OpcodeRow) (w : Word32) : Bool := w &&& r.mask == r.pattern

/-- The row of a command. -/
def rowOf : Instr → OpcodeRow
  | .reset => rowReset
  | .synth _ _ => rowSynth

/-- The expansion of a pseudo-command (R78). -/
def Pseudo.expand : Pseudo → Instr
  | .upchirp value => .synth value false
  | .dnchirp value => .synth value true

/-- The command word whose low `nbits` bits are those of `w` and whose other bits are 0. -/
def tableWord (nbits w : Nat) : Word32 := BitVec.ofNat 32 (w % 2 ^ nbits)

/-- What `decode` reads from an instruction whose bits, numbered as spec/opcode_table.json numbers them, are `w`. -/
def decodeTableWord (nbits w : Nat) : Option Instr := (decode (tableWord nbits w)).instr?

end Sys2Proof
end

