-- ==== Sys2Proof/Machine/Operands.lean ====
section
/-! DEFINITION. What the operations read: the constants derived from the configuration (spec/00_scope.md R8,
spec/40_numerics.md R93, R94) and the operands of a command as they enter the registers (R95). All divisions are
exact (R96). -/

namespace Sys2Proof.Machine

/-- N = 2^SF, the alphabet size (R93). -/
def alphabetSize (c : Config) : Nat := 2 ^ c.sf

/-- NSAMP = floor(FS × N / BW), the floor of the exact quotient (R94). -/
def nsamp (c : Config) : Nat := ((c.fs : Rat) * (alphabetSize c : Rat) / c.bw).floor.toNat

/-- STEPSZ = BW / FS, the per-sample step of `shift` (R8). -/
def stepsz (c : Config) : Rat := c.bw / (c.fs : Rat)

/-- FOFF = FS/4 − BW/2, the fixed frequency offset (R8, R96). -/
def foff (c : Config) : Rat := (c.fs : Rat) / 4 - c.bw / 2

/-- `ofInt(value)` (R95): the symbol value as it enters `shift`, neither scaled nor reduced nor checked. -/
def operandShift (value : Int) : Rat := (value : Rat)

/-- A symbol value is in the alphabet when 0 ≤ value < N (R150). -/
abbrev InAlphabet (c : Config) (value : Int) : Prop := 0 ≤ value ∧ value < (alphabetSize c : Int)

end Sys2Proof.Machine
end

