-- ==== Sys2Proof/Machine/State.lean ====
section
/-! DEFINITION. The state of one instance (spec/10_state.md R20, R33, R37), with what the other agents have
still to do as plain data (spec/00_scope.md R11), and the reasons a step can stop. -/

namespace Sys2Proof.Machine

/-- The SINK's answer to one `emit` (spec/20_memory.md R64, spec/60_exceptions.md R184). -/
inductive SinkAnswer where
  /-- The sink takes the pair (R51). -/
  | accept
  /-- The sink is not ready: the engine holds before its `emit` (R64). -/
  | wait
  /-- The sink reports a failure (R184); the block's own port has no such input (C7). -/
  | fail
deriving DecidableEq, Repr

/-- What the outside world does in one unit of progress (DESIGN CHOICE, log entry 7). -/
structure Input where
  /-- The platform's hardware reset input is asserted (spec/70_reset_and_hazards.md R211 c). -/
  reset : Bool
  /-- The HOST presents its next command without waiting for `busy` to fall (R199). -/
  present : Bool
  /-- The SINK's answer, if the engine attempts an `emit`. -/
  sink : SinkAnswer
deriving DecidableEq, Repr

/-- An instant in which nothing happens outside and the sink is ready (DESIGN CHOICE, log entry 7, unsafe: it is what
every instant beyond the list of a state is). -/
def Input.quiet : Input := { reset := false, present := false, sink := .accept }

/-- One pair handed to the sink, recorded by its argument in turns as R107 records it
(spec/40_numerics.md): it stands for (cos 2πθ, sin 2πθ), see `Sample.pair`. -/
structure Sample where
  theta : Rat
deriving DecidableEq, Repr

/-- How a SYNTH came back to the host (R184, R188; the model's record, DESIGN CHOICE, log entry 5). -/
inductive Completion where
  /-- It returned with every pair taken, or with no pair to emit (R153). -/
  | done
  /-- It returned reporting a failure of the sink (R184). -/
  | sinkFailure
deriving DecidableEq, Repr

/-- The registers that hold a value only while a symbol is being synthesized (R20, R24, R26, R27). -/
structure InFlight where
  /-- `shift`, the frequency offset register, in chips (R24). -/
  shift : Rat
  /-- `inv`, the latched direction (R26). -/
  inv : Bool
  /-- `idx`, the index of the next sample (R27). -/
  idx : Nat
  /-- The model's own (log entry 5): the call has a sink failure to report at its return (R184, R189 b). -/
  sinkFailed : Bool
deriving DecidableEq, Repr

/-- The state of one instance. -/
structure State where
  /-- The configuration registers CFG0 to CFG2 and the policy parameter (R29, R10); no step writes them (R30).
  DESIGN CHOICE (log entry 4), safe: R30 makes them a parameter of the step, which here is read from the state. -/
  cfg : Config
  /-- `phase` (R21) in turns: the register holds 2π × this (R106, R107; DEDUCED, log entry 2, safe). -/
  phase : Rat
  /-- `shift`, `inv`, `idx`: present exactly while `busy` = 1 (R20, R28; DEDUCED, log entry 3, safe). -/
  flight : Option InFlight
  /-- OUT, every pair the sink has taken, in order (R33, R51). -/
  out : List Sample
  /-- How the host's SYNTHs have returned, in order (R188, R190; log entry 5). -/
  returns : List Completion
  /-- The HOST's commands not yet presented, in order (spec/30_encoding.md R77; DESIGN CHOICE, log entry 6). -/
  program : List Word32
  /-- What the outside world does in the coming units of progress; beyond the list every instant is quiet
  (DESIGN CHOICE, log entry 7). -/
  inputs : List Input
deriving DecidableEq, Repr

/-- `busy` (R28): the in-flight registers hold a value exactly while `busy` = 1 (R20). -/
def State.busy (s : State) : Bool := s.flight.isSome

/-- A freshly constructed instance with configuration `c` (R37, R121). -/
def State.fresh (c : Config) : State :=
  { cfg := c, phase := 0, flight := none, out := [], returns := [], program := [], inputs := [] }

/-- The machine right after reset (R37), with the configuration of log entry 1. -/
def State.reset : State := State.fresh Config.documentExample

/-- The reasons the machine stops with a fault. -/
inductive Fault where
  /-- Raised by the engine when a STEP is attempted with `idx` ≥ NSAMP, outside R130's precondition, for which
  the spec gives no meaning. No run from construction reaches it. Safe: the model stops (log entry 8). -/
  | stepBeyondSymbol
deriving DecidableEq, Repr

/-- The reasons the model gives no meaning. -/
inductive Refusal where
  /-- Raised by `exec` for an instruction that has no meaning yet; no arm raises it. Safe. -/
  | notModelled (mnemonic : String)
  /-- InvalidConfig (R182): raised by `construct`, by every command and by every step when the configuration is
  not CfgWF. Safe. -/
  | invalidConfig
  /-- CommandWhileBusy (R199): raised by every command, and by a step in which the host presents one, when
  `busy` = 1. Safe. -/
  | commandWhileBusy
  /-- ReservedCommand (R74): raised by a step whose presented word spells no command. Safe. -/
  | reservedCommand
deriving DecidableEq, Repr

end Sys2Proof.Machine
end

