-- ==== Sys2Proof/Machine/Flags.lean ====
section
/-! DEFINITION. The block's only flag, `busy` (spec/10_state.md R28): when an accepted SYNTH sets it and when a
STEP clears it, and what the host is told when it falls (spec/60_exceptions.md R188). -/

namespace Sys2Proof.Machine

/-- An accepted SYNTH leaves `busy` at 1 unless there is no sample to emit (spec/43_synth.md R151, R153). -/
def busyAtStart (c : Config) : Bool := nsamp c != 0

/-- `busy` after the STEP that started at `idx`: cleared when idx + 1 = NSAMP (spec/42_sample_step.md R139). -/
def busyAfterStep (c : Config) (idx : Nat) : Bool := idx + 1 != nsamp c

/-- What the returning call reports: a sink failure of the symbol, or none (R184, R188, R189 b). -/
def completionOf (sinkFailed : Bool) : Completion := if sinkFailed then .sinkFailure else .done

end Sys2Proof.Machine
end

