-- ==== Sys2Proof/Machine/Ops.lean ====
section
/-! DEFINITION. The named operations on the state that the commands, the engine and the reset input share.
The block takes no exception and returns from none (spec/60_exceptions.md R180, R190, R191), so there is no such
operation; its nearest relative, the end of a symbol on a sink failure, is `endSymbol`. -/

namespace Sys2Proof.Machine

/-- Acceptance of a command (R199, R182): only an instance that exists, and only when `busy` = 0. -/
def accept (s t : State) : Host.Outcome State Fault Refusal :=
  if ¬ s.cfg.WF then .refused .invalidConfig
  else if s.busy then .refused .commandWhileBusy
  else .next t

/-- The reset state of the registers (spec/10_state.md R37): `phase` = 0, `busy` = 0, the rest without value.
Configuration, OUT and the other agents are not touched (spec/70_reset_and_hazards.md R212). -/
def resetRegisters (s : State) : State := { s with phase := 0, flight := none }

/-- `emit` (spec/20_memory.md R51): the sink takes one pair. -/
def emit (s : State) (x : Sample) : State := { s with out := s.out ++ [x] }

/-- `busy` falls and the host's call returns (R139, R188): `shift`, `inv` and `idx` hold no value any more. -/
def endSymbol (s : State) (sinkFailed : Bool) : State :=
  { s with flight := none, returns := s.returns ++ [completionOf sinkFailed] }

/-- The start transition of SYNTH (spec/43_synth.md R151), with R153's immediate end when NSAMP = 0 (D19; DEDUCED, log
entry 12, safe). -/
def beginSymbol (s : State) (value : Int) (inv : Bool) : State :=
  if busyAtStart s.cfg then
    { s with flight := some { shift := operandShift value, inv := inv, idx := 0, sinkFailed := false } }
  else endSymbol s false

/-- What the outside world does in this unit of progress. -/
def inputNow (s : State) : Input := s.inputs.headD Input.quiet

/-- The unit of progress is over for the outside world. -/
def inputTaken (s : State) : State := { s with inputs := s.inputs.tail }

/-- The HOST's next command has been taken from it. -/
def commandTaken (s : State) : State := { s with program := s.program.tail }

end Sys2Proof.Machine
end

