-- ==== Sys2Proof/Machine/Engine.lean ====
section
/-! DEFINITION. The per-sample micro-operation STEP (spec/42_sample_step.md, block P130), one definition per
sub-step, in the turn representation of spec/40_numerics.md R106: the phase is counted in turns, so R135 adds
f/FS and R136 compares with 1/2 and subtracts 1. -/

namespace Sys2Proof.Machine

/-- STEP.FREQ, base frequency (R132): (BW × shift) / N, in Hz. -/
def freqBase (c : Config) (shift : Rat) : Rat := c.bw * shift / (alphabetSize c : Rat)

/-- STEP.FREQ, direction (R133): `f_pre`, in Hz. -/
def freqPre (c : Config) (inv : Bool) (shift : Rat) : Rat :=
  if inv then c.bw - freqBase c shift else freqBase c shift

/-- STEP.FREQ, fixed offset (R134): the instantaneous frequency, in Hz. -/
def freqInst (c : Config) (inv : Bool) (shift : Rat) : Rat := freqPre c inv shift + foff c

/-- The increment of R135 in turns: d = f / FS (R106). -/
def phaseIncrement (c : Config) (inv : Bool) (shift : Rat) : Rat := freqInst c inv shift / (c.fs : Rat)

/-- STEP.PHASE, wrap (R136): one strict test, one subtraction; nothing is ever added (C1). -/
def phaseWrap (theta : Rat) : Rat := if 1 / 2 < theta then theta - 1 else theta

/-- STEP.PHASE (R135, R136). -/
def phaseNext (c : Config) (inv : Bool) (shift theta : Rat) : Rat := phaseWrap (theta + phaseIncrement c inv shift)

/-- STEP.SHIFT, wrap (R138): one non-strict test, one subtraction. -/
def shiftWrap (c : Config) (shift : Rat) : Rat :=
  if (alphabetSize c : Rat) ≤ shift then shift - (alphabetSize c : Rat) else shift

/-- STEP.SHIFT (R137, R138). -/
def shiftNext (c : Config) (shift : Rat) : Rat := shiftWrap c (shift + stepsz c)

/-- STEP.EMIT (R131): the pair handed to the sink shows the phase before this step's advance. -/
def stepSample (s : State) : Sample := { theta := s.phase }

/-- STEP.IDX (R139): the symbol goes on with the advanced registers, or is over. -/
def stepIdx (s : State) (r : InFlight) : State :=
  if busyAfterStep s.cfg r.idx then { s with flight := some { r with idx := r.idx + 1 } }
  else endSymbol s r.sinkFailed

/-- STEP.FREQ, STEP.PHASE, STEP.SHIFT and STEP.IDX, in that order (R130): everything after the `emit`. -/
def stepAdvance (s : State) (r : InFlight) : State :=
  stepIdx { s with phase := phaseNext s.cfg r.inv r.shift s.phase } { r with shift := shiftNext s.cfg r.shift }

/-- STEP with the sink taking the pair (R130). -/
def stepAccepted (s : State) (r : InFlight) : State := stepAdvance (emit s (stepSample s)) r

/-- STEP with the sink failing (spec/60_exceptions.md R184): CONTINUE goes on without the pair (R185), HALT ends
the symbol before any register of this step is written (R186). -/
def stepFailed (s : State) (r : InFlight) : State :=
  match s.cfg.sinkFail with
  | .continueSymbol => stepAdvance s { r with sinkFailed := true }
  | .haltSymbol => endSymbol s true

/-- One unit of the engine's progress while `busy` = 1, with the sink's answer `a`; a sink that is not ready
holds it before the `emit` (spec/20_memory.md R64). -/
def engine (s : State) (r : InFlight) (a : SinkAnswer) : Host.Outcome State Fault Refusal :=
  if r.idx < nsamp s.cfg then
    match a with
    | .accept => .next (stepAccepted s r)
    | .wait => .next s
    | .fail => .next (stepFailed s r)
  else .fault .stepBeyondSymbol

end Sys2Proof.Machine
end

