-- ==== Sys2Proof/Machine/Control.lean ====
section
/-! DEFINITION. The control operation RESET (spec/41_control.md R120), the hardware reset input
(spec/70_reset_and_hazards.md R211), and the arbitration of one unit of progress among hardware reset, command and
engine in the order of spec/60_exceptions.md R189 (D20). -/

namespace Sys2Proof.Machine

/-- RESET (R120): accepted only when idle; clears the phase and nothing else that holds a value. -/
def execReset (s : State) : Host.Outcome State Fault Refusal := accept s (resetRegisters s)

/-- The hardware reset input (R211 c): at any time, during a symbol too; a running symbol is abandoned, and its call
reports nothing (DESIGN CHOICE, log entry 13). -/
def hardReset (s : State) : State := resetRegisters s

/-- What one unit of progress comes to: an outcome already settled, or a command to run in a state. -/
inductive Action where
  | settled (o : Host.Outcome State Fault Refusal)
  | run (i : Instr) (s : State)

/-- The word of a command presented to an idle block (R74): a command to run, or a refusal. -/
def commandAction (w : Word32) (s : State) : Action :=
  match decode w with
  | .command i => .run i s
  | .invalid _ => .settled (.refused .reservedCommand)

/-- An idle block waits for a command (spec/43_synth.md R152); the host presents its next one, if it has any (R77). -/
def idleAction (s : State) : Action :=
  match s.program with
  | [] => .settled (.next s)
  | w :: _ => commandAction w (commandTaken s)

/-- A busy block performs one STEP, unless the host presents a command, which is refused before it is decoded
(R199, R189 e). -/
def busyAction (s : State) (r : InFlight) (i : Input) : Action :=
  if i.present = true ∧ s.program ≠ [] then .settled (.refused .commandWhileBusy)
  else .settled (engine s r i.sink)

/-- What a block whose configuration is CfgWF does in one unit of progress (R189): the hardware reset wins, and a
command presented in the same instant is not accepted: it stays with the host (DESIGN CHOICE, log entry 6). -/
def arbitrate (s : State) : Action :=
  if (inputNow s).reset then .settled (.next (hardReset (inputTaken s)))
  else
    match s.flight with
    | none => idleAction (inputTaken s)
    | some r => busyAction (inputTaken s) r (inputNow s)

/-- One unit of progress: an instance that is not CfgWF does not exist (R182), so a step refuses before anything else
(DEDUCED, log entry 14, safe). -/
def control (s : State) : Action :=
  if s.cfg.WF then arbitrate s else .settled (.refused .invalidConfig)

/-- The host presents `w` in the very next unit of progress, before anything else it has to present. -/
def presentNext (s : State) (w : Word32) : State :=
  { s with program := w :: s.program, inputs := { reset := false, present := true, sink := .accept } :: s.inputs }

end Sys2Proof.Machine
end

