-- ==== Sys2Proof/Machine/Synth.lean ====
section
/-! DEFINITION. The symbol operation SYNTH (spec/43_synth.md) at both levels of spec/00_scope.md R11: at the sample
level its acceptance transition (R151), after which the engine performs NSAMP STEPs; at the command level the
whole of block P150 as one transition. R166 says the two agree. -/

namespace Sys2Proof.Machine

/-- SYNTH value, inv (R150, R151): the acceptance transition. -/
def execSynth (value : Int) (inv : Bool) (s : State) : Host.Outcome State Fault Refusal :=
  accept s (beginSymbol s value inv)

/-- `shift` as the `k`-th STEP of a symbol reads it (spec/43_synth.md R164, R151). -/
def shiftAt (c : Config) (value : Int) : Nat → Rat
  | 0 => operandShift value
  | k + 1 => shiftNext c (shiftAt c value k)

/-- `phase`, in turns, as the `k`-th STEP of a symbol reads it, from the phase before the symbol. -/
def phaseAt (c : Config) (value : Int) (inv : Bool) (theta : Rat) : Nat → Rat
  | 0 => theta
  | k + 1 => phaseNext c inv (shiftAt c value k) (phaseAt c value inv theta k)

/-- The pairs the first `k` STEPs of a symbol emit, in order (R53). -/
def samplesUpTo (c : Config) (value : Int) (inv : Bool) (theta : Rat) (k : Nat) : List Sample :=
  (List.range k).map fun j => { theta := phaseAt c value inv theta j }

/-- The command-level SYNTH (R150): NSAMP pairs appended, the phase advanced NSAMP times, idle again. -/
def synthesize (s : State) (value : Int) (inv : Bool) : State :=
  { s with
    phase := phaseAt s.cfg value inv s.phase (nsamp s.cfg)
    flight := none
    out := s.out ++ samplesUpTo s.cfg value inv s.phase (nsamp s.cfg)
    returns := s.returns ++ [.done] }

/-- One command as one transition (the command level of R11). -/
def commandLevel (i : Instr) (s : State) : Host.Outcome State Fault Refusal :=
  match i with
  | .reset => execReset s
  | .synth value inv => accept s (synthesize s value inv)

end Sys2Proof.Machine
end

