-- ==== Sys2Proof/Machine/Step.lean ====
section
/-! DEFINITION. One unit of progress of the whole machine (spec/00_scope.md R11, sample level): what `control`
settles, or the command it gives to `exec`. -/

namespace Sys2Proof.Machine

/-- One unit of progress. -/
def step (s : State) : Host.Outcome State Fault Refusal :=
  match control s with
  | .settled o => o
  | .run i t => exec i t

/-- The host presents the table's word in the very next step (log entry 9). -/
def State.withFetchWord (s : State) (nbits w : Nat) : State := presentNext s (tableWord nbits w)

end Sys2Proof.Machine
end

