-- ==== Sys2Proof/Machine/Assembler.lean ====
section
/-! DEFINITION. The text form of commands (spec/30_encoding.md R77, R78): one command a line, `RESET`,
`SYNTH <value>, <inv>`, `UPCHIRP <value>`, `DNCHIRP <value>`, a decimal or 0x hexadecimal value, and a comment from
`;` to the end of the line. The spec does not say where blanks may stand: DESIGN CHOICE, log entry 10. -/

namespace Sys2Proof.Machine

/-- What one line of text is. -/
inductive AsmLine where
  /-- Nothing but blanks and a comment (the configuration header line of R77 is one). -/
  | blank
  /-- A command. -/
  | command (i : Instr)
  /-- Not of the form of R77. -/
  | malformed
deriving DecidableEq, Repr

/-- A blank of the text form. -/
def isBlank (c : Char) : Bool := c == ' ' || c == '\t'

/-- The line without its comment. -/
def stripComment (cs : List Char) : List Char := cs.takeWhile (fun c => c != ';')

/-- The text without blanks at its ends. -/
def trimBlanks (cs : List Char) : List Char := ((cs.dropWhile isBlank).reverse.dropWhile isBlank).reverse

/-- The value of a digit in a base up to 16. -/
def digitValue (base : Nat) (c : Char) : Option Nat :=
  let v :=
    if '0' ≤ c ∧ c ≤ '9' then some (c.toNat - '0'.toNat)
    else if 'a' ≤ c ∧ c ≤ 'f' then some (c.toNat - 'a'.toNat + 10)
    else if 'A' ≤ c ∧ c ≤ 'F' then some (c.toNat - 'A'.toNat + 10)
    else none
  v.filter (fun d => decide (d < base))

/-- The number spelt by digits, from the number spelt so far. -/
def digitsValue (base : Nat) : Nat → List Char → Option Nat
  | acc, [] => some acc
  | acc, c :: cs => (digitValue base c).bind fun d => digitsValue base (acc * base + d) cs

/-- The digits of a number and their base: 0x hexadecimal, else decimal (R77). -/
def numberBase (cs : List Char) : Nat × List Char :=
  match cs with
  | '0' :: 'x' :: ds => (16, ds)
  | ds => (10, ds)

/-- A decimal or 0x hexadecimal non-negative integer (R77). -/
def parseNumber (cs : List Char) : Option Nat :=
  match numberBase cs with
  | (_, []) => none
  | (base, ds) => digitsValue base 0 ds

/-- The operand `<inv>`: 0 or 1 (R77). -/
def parseInv (cs : List Char) : Option Bool :=
  match cs with
  | ['0'] => some false
  | ['1'] => some true
  | _ => none

/-- The first word of a trimmed line. -/
def lineHead (cs : List Char) : List Char := cs.takeWhile (fun c => !isBlank c)

/-- What follows the first word of a trimmed line, trimmed. -/
def lineRest (cs : List Char) : List Char := trimBlanks (cs.dropWhile (fun c => !isBlank c))

/-- The text before the first comma, trimmed. -/
def beforeComma (cs : List Char) : List Char := trimBlanks (cs.takeWhile (fun c => c != ','))

/-- The text after the first comma, trimmed; nothing where there is no comma. -/
def afterComma (cs : List Char) : List Char := trimBlanks ((cs.dropWhile (fun c => c != ',')).drop 1)

/-- The operands of SYNTH: `<value>, <inv>` (R77). -/
def parseSynth (cs : List Char) : Option Instr :=
  match parseNumber (beforeComma cs), parseInv (afterComma cs) with
  | some v, some b => some (.synth v b)
  | _, _ => none

/-- The command of a trimmed line with mnemonic `m` and operand text `cs` (R77, R78). -/
def parseCommand (m cs : List Char) : Option Instr :=
  if m = ['R', 'E', 'S', 'E', 'T'] then (if cs = [] then some .reset else none)
  else if m = ['S', 'Y', 'N', 'T', 'H'] then parseSynth cs
  else if m = ['U', 'P', 'C', 'H', 'I', 'R', 'P'] then (parseNumber cs).map fun v => (Pseudo.upchirp v).expand
  else if m = ['D', 'N', 'C', 'H', 'I', 'R', 'P'] then (parseNumber cs).map fun v => (Pseudo.dnchirp v).expand
  else none

/-- One line of a program (R77). -/
def parseLine (cs : List Char) : AsmLine :=
  match trimBlanks (stripComment cs) with
  | [] => .blank
  | body =>
    match parseCommand (lineHead body) (lineRest body) with
    | some i => .command i
    | none => .malformed

/-- The words of a program's lines (R77): `none` where a line is malformed or its command has no word (R76). -/
def assemble : List (List Char) → Option (List Word32)
  | [] => some []
  | line :: rest =>
    match parseLine line with
    | .blank => assemble rest
    | .malformed => none
    | .command i => (encode i).bind fun w => (assemble rest).map fun ws => w :: ws

end Sys2Proof.Machine
end

