-- ==== Sys2Proof/Machine/Construct.lean ====
section
/-! DEFINITION. Construction of an instance (spec/41_control.md R121): RESET together with the binding of the
configuration; a configuration that is not CfgWF is refused (spec/60_exceptions.md R182). -/

namespace Sys2Proof.Machine

/-- The configuration a caller offers is acceptable: all three positive, `sf` and `fs` integers (R182, R9). -/
abbrev ConfigOffered (bw sf fs : Rat) : Prop := 0 < bw ∧ 0 < sf ∧ 0 < fs ∧ sf.den = 1 ∧ fs.den = 1

/-- Construction with the offered values and the policy parameter (R121, R182). -/
def construct (bw sf fs : Rat) (policy : SinkFailPolicy) : Host.Outcome State Fault Refusal :=
  if ConfigOffered bw sf fs then
    .next (State.fresh { bw := bw, sf := sf.num.toNat, fs := fs.num.toNat, sinkFail := policy })
  else .refused .invalidConfig

end Sys2Proof.Machine
end

