-- ==== Sys2Proof/Machine/Numerics.lean ====
section
/-! DEFINITION. The open parameter NUM (spec/40_numerics.md R92): a number type with its operations, over which the
formulas are written once, block P130 and block P150 in radians, left to right as R97 orders them; its normative
instantiation NUM.exact (R91); and the pair a recorded sample stands for (R107). The commands and the engine over a
NUM, and what every NUM owes, stand in Machine/NumMachine.lean; the executable machine of the other files is NUM.exact
in turns. -/

namespace Sys2Proof.Machine

/-- NUM, the fields of R92. -/
structure Numerics where
  /-- `Real`. -/
  Carrier : Type
  ofInt : Int → Carrier
  add : Carrier → Carrier → Carrier
  sub : Carrier → Carrier → Carrier
  mul : Carrier → Carrier → Carrier
  div : Carrier → Carrier → Carrier
  gt : Carrier → Carrier → Bool
  ge : Carrier → Carrier → Bool
  pi : Carrier
  twoPi : Carrier
  zero : Carrier
  cos : Carrier → Carrier
  sin : Carrier → Carrier

/-- IQGEN (R101). -/
def numIqgen (n : Numerics) (p : n.Carrier) : n.Carrier × n.Carrier := (n.cos p, n.sin p)

/-- R132: (BW × shift) / N. -/
def numFreqBase (n : Numerics) (bw : n.Carrier) (sf : Nat) (shift : n.Carrier) : n.Carrier :=
  n.div (n.mul bw shift) (n.ofInt (2 ^ sf))

/-- R133: BW − f when `inv`. -/
def numFreqPre (n : Numerics) (bw : n.Carrier) (sf : Nat) (inv : Bool) (shift : n.Carrier) : n.Carrier :=
  if inv then n.sub bw (numFreqBase n bw sf shift) else numFreqBase n bw sf shift

/-- R134: f + ((FS/4) − (BW/2)). -/
def numFreq (n : Numerics) (bw : n.Carrier) (sf fs : Nat) (inv : Bool) (shift : n.Carrier) : n.Carrier :=
  n.add (numFreqPre n bw sf inv shift)
    (n.sub (n.div (n.ofInt fs) (n.ofInt 4)) (n.div bw (n.ofInt 2)))

/-- R135: phase + ((TWO_PI × f) / FS). -/
def numPhaseAdvance (n : Numerics) (fs : Nat) (f phase : n.Carrier) : n.Carrier :=
  n.add phase (n.div (n.mul n.twoPi f) (n.ofInt fs))

/-- R136: if phase > PI then phase − TWO_PI. -/
def numPhaseWrap (n : Numerics) (phase : n.Carrier) : n.Carrier :=
  if n.gt phase n.pi then n.sub phase n.twoPi else phase

/-- R137: shift + (BW / FS). -/
def numShiftAdvance (n : Numerics) (bw : n.Carrier) (fs : Nat) (shift : n.Carrier) : n.Carrier :=
  n.add shift (n.div bw (n.ofInt fs))

/-- R138: if shift ≥ N then shift − N. -/
def numShiftWrap (n : Numerics) (sf : Nat) (shift : n.Carrier) : n.Carrier :=
  if n.ge shift (n.ofInt (2 ^ sf)) then n.sub shift (n.ofInt (2 ^ sf)) else shift

/-- The registers of block P130 that are numbers. -/
structure NumRegs (n : Numerics) where
  phase : n.Carrier
  shift : n.Carrier

/-- The two registers after one STEP (block P130). -/
def numStep (n : Numerics) (bw : n.Carrier) (sf fs : Nat) (inv : Bool) (r : NumRegs n) : NumRegs n :=
  { phase := numPhaseWrap n (numPhaseAdvance n fs (numFreq n bw sf fs inv r.shift) r.phase)
    shift := numShiftWrap n sf (numShiftAdvance n bw fs r.shift) }

/-- `k` STEPs of a symbol (block P150): the pairs emitted, in order, and the registers at the end. -/
def numLoop (n : Numerics) (bw : n.Carrier) (sf fs : Nat) (inv : Bool) :
    Nat → NumRegs n → List (n.Carrier × n.Carrier) × NumRegs n
  | 0, r => ([], r)
  | k + 1, r =>
    (numIqgen n r.phase :: (numLoop n bw sf fs inv k (numStep n bw sf fs inv r)).1,
      (numLoop n bw sf fs inv k (numStep n bw sf fs inv r)).2)

/-- BW of R7 as an element of `Real`, the rational number D4 makes it, written with the only operations R92 gives:
`ofInt` and `div` (DESIGN CHOICE, log entry 11; under NUM.exact it is BW itself, `numBw_exact`). -/
def numBw (n : Numerics) (c : Config) : n.Carrier := n.div (n.ofInt c.bw.num) (n.ofInt (c.bw.den : Int))

/-- The command-level SYNTH of block P150 for any NUM: the pairs of its NSAMP STEPs, and the phase left to the next
symbol. NSAMP is the integer of R94, the same for every NUM (R95). -/
def numSynth (n : Numerics) (c : Config) (value : Int) (inv : Bool) (phase : n.Carrier) :
    List (n.Carrier × n.Carrier) × n.Carrier :=
  ((numLoop n (numBw n c) c.sf c.fs inv (nsamp c) { phase := phase, shift := n.ofInt value }).1,
    (numLoop n (numBw n c) c.sf c.fs inv (nsamp c) { phase := phase, shift := n.ofInt value }).2.phase)

/-- The difference i² + q² − 1 of R102, in a NUM. -/
def numEnergyError (n : Numerics) (p : n.Carrier) : n.Carrier :=
  n.sub (n.add (n.mul (n.cos p) (n.cos p)) (n.mul (n.sin p) (n.sin p))) (n.ofInt 1)

/-- NUM.exact (R92): the real numbers, nothing rounded. -/
noncomputable def numExact : Numerics :=
  { Carrier := ℝ
    ofInt := fun z => (z : ℝ)
    add := fun x y => x + y
    sub := fun x y => x - y
    mul := fun x y => x * y
    div := fun x y => x / y
    gt := fun x y => decide (y < x)
    ge := fun x y => decide (y ≤ x)
    pi := Real.pi
    twoPi := 2 * Real.pi
    zero := 0
    cos := Real.cos
    sin := Real.sin }

/-- The register `phase` in radians: 2π × the turns the state holds (R106). -/
noncomputable def radians (theta : Rat) : ℝ := 2 * Real.pi * (theta : ℝ)

/-- The pair (i, q) = (cos 2πθ, sin 2πθ) a recorded sample stands for (R107): `i` first (spec/20_memory.md R58). -/
noncomputable def Sample.pair (x : Sample) : ℝ × ℝ := (Real.cos (radians x.theta), Real.sin (radians x.theta))

end Sys2Proof.Machine
end

