-- ==== Sys2Proof/Machine/NumMachine.lean ====
section
/-! DEFINITION. The block over any NUM (spec/40_numerics.md R92): every rule of spec/41_control.md,
spec/42_sample_step.md and spec/43_synth.md with the registers `phase` and `shift` in `Real`, and the sink's answers of
spec/60_exceptions.md; which arguments the engine can present to IQGEN, and what the spec owes of every NUM on them
(R102 to R104). `State.toNum` says which state over NUM.exact a state of the executable machine stands for. -/

namespace Sys2Proof.Machine

/-- The registers that hold a value only while a symbol is being synthesized (spec/10_state.md R24, R26, R27). -/
structure NumFlight (n : Numerics) where
  shift : n.Carrier
  inv : Bool
  idx : Nat

/-- The registers of one instance over a NUM (R20, R29), and OUT (R33). -/
structure NumState (n : Numerics) where
  cfg : Config
  /-- `phase`, in radians (R21). -/
  phase : n.Carrier
  flight : Option (NumFlight n)
  out : List (n.Carrier × n.Carrier)

/-- A freshly constructed instance: `phase` is ZERO (R121, R37). -/
def numFresh (n : Numerics) (c : Config) : NumState n := { cfg := c, phase := n.zero, flight := none, out := [] }

/-- Construction (R121, spec/60_exceptions.md R182): the configuration and the check are `construct`'s. -/
def numConstruct (n : Numerics) (bw sf fs : Rat) (policy : SinkFailPolicy) :
    Host.Outcome (NumState n) Fault Refusal :=
  match construct bw sf fs policy with
  | .next s => .next (numFresh n s.cfg)
  | .fault f => .fault f
  | .refused r => .refused r

/-- Acceptance of a command (R199, R182). -/
def numAccept {n : Numerics} (s t : NumState n) : Host.Outcome (NumState n) Fault Refusal :=
  if ¬ s.cfg.WF then .refused .invalidConfig
  else if s.flight.isSome then .refused .commandWhileBusy
  else .next t

/-- The reset state of the registers: phase <- ZERO; busy <- 0 (R120, R211). -/
def numResetRegisters {n : Numerics} (s : NumState n) : NumState n := { s with phase := n.zero, flight := none }

/-- `emit` (spec/20_memory.md R51): the pair IQGEN(phase) of the phase before the advance (R131). -/
def numEmit {n : Numerics} (s : NumState n) : NumState n := { s with out := s.out ++ [numIqgen n s.phase] }

/-- RESET (R120, R122, R123). -/
def numExecReset {n : Numerics} (s : NumState n) : Host.Outcome (NumState n) Fault Refusal :=
  numAccept s (numResetRegisters s)

/-- The start transition of SYNTH (R151, R153). -/
def numBeginSymbol {n : Numerics} (s : NumState n) (value : Int) (inv : Bool) : NumState n :=
  if busyAtStart s.cfg then { s with flight := some { shift := n.ofInt value, inv := inv, idx := 0 } }
  else { s with flight := none }

/-- SYNTH at the sample level (R150, R151). -/
def numExecSynth {n : Numerics} (value : Int) (inv : Bool) (s : NumState n) :
    Host.Outcome (NumState n) Fault Refusal :=
  numAccept s (numBeginSymbol s value inv)

/-- A command over a NUM. -/
def numExec {n : Numerics} (i : Instr) (s : NumState n) : Host.Outcome (NumState n) Fault Refusal :=
  match i with
  | .reset => numExecReset s
  | .synth value inv => numExecSynth value inv s

/-- The two number registers after the STEP that starts with them (block P130). -/
def numStepRegs {n : Numerics} (s : NumState n) (r : NumFlight n) : NumRegs n :=
  numStep n (numBw n s.cfg) s.cfg.sf s.cfg.fs r.inv { phase := s.phase, shift := r.shift }

/-- STEP.FREQ, STEP.PHASE, STEP.SHIFT and STEP.IDX (R132 to R139): everything after the `emit`. -/
def numAdvance {n : Numerics} (s : NumState n) (r : NumFlight n) : NumState n :=
  { s with
    phase := (numStepRegs s r).phase
    flight :=
      if busyAfterStep s.cfg r.idx then some { r with shift := (numStepRegs s r).shift, idx := r.idx + 1 }
      else none }

/-- STEP with the sink failing (R184): CONTINUE goes on without the pair (R185), HALT ends the symbol with nothing
written (R186). -/
def numFailed {n : Numerics} (s : NumState n) (r : NumFlight n) : NumState n :=
  match s.cfg.sinkFail with
  | .continueSymbol => numAdvance s r
  | .haltSymbol => { s with flight := none }

/-- One unit of the engine's progress with the sink's answer (R130, R64, R184); outside R130's precondition the fault of
log entry 8. -/
def numEngine {n : Numerics} (s : NumState n) (r : NumFlight n) (a : SinkAnswer) :
    Host.Outcome (NumState n) Fault Refusal :=
  if r.idx < nsamp s.cfg then
    match a with
    | .accept => .next (numAdvance (numEmit s) r)
    | .wait => .next s
    | .fail => .next (numFailed s r)
  else .fault .stepBeyondSymbol

/-- Up to `k` units of the engine's progress with a sink that takes every pair; an idle block makes none (R152). -/
def numSteps {n : Numerics} : Nat → NumState n → Host.Outcome (NumState n) Fault Refusal
  | 0, s => .next s
  | k + 1, s =>
    match s.flight with
    | none => .next s
    | some r =>
      match numEngine s r .accept with
      | .next t => numSteps k t
      | .fault f => .fault f
      | .refused why => .refused why

/-- The command-level SYNTH (R150, block P150): NSAMP pairs appended, the phase advanced NSAMP times, idle again. -/
def numSynthesize {n : Numerics} (s : NumState n) (value : Int) (inv : Bool) : NumState n :=
  { s with
    phase := (numSynth n s.cfg value inv s.phase).2
    flight := none
    out := s.out ++ (numSynth n s.cfg value inv s.phase).1 }

/-- One command as one transition, over a NUM. -/
def numCommandLevel {n : Numerics} (i : Instr) (s : NumState n) : Host.Outcome (NumState n) Fault Refusal :=
  match i with
  | .reset => numExecReset s
  | .synth value inv => numAccept s (numSynthesize s value inv)

/-- The states an instance with configuration `c` can come to: constructed, then any commands accepted, any answers of
the sink, and the hardware reset input at any time (R211). -/
inductive NumReachable (n : Numerics) (c : Config) : NumState n → Prop where
  | constructed : c.WF → NumReachable n c (numFresh n c)
  | command {s t : NumState n} (i : Instr) : NumReachable n c s → numExec i s = .next t → NumReachable n c t
  | engine {s t : NumState n} (r : NumFlight n) (a : SinkAnswer) :
      NumReachable n c s → s.flight = some r → numEngine s r a = .next t → NumReachable n c t
  | hardReset {s : NumState n} : NumReachable n c s → NumReachable n c (numResetRegisters s)

/-- `p` is an argument the engine of an instance with configuration `c` can present to IQGEN (R102): the phase of a
state it can come to, in which a STEP can begin (R130, R131). -/
def NumPresents (n : Numerics) (c : Config) (p : n.Carrier) : Prop :=
  ∃ s r, NumReachable n c s ∧ s.flight = some r ∧ r.idx < nsamp c ∧ s.phase = p

/-- What the spec owes of a NUM in an instance with configuration `c`, with the tolerance EPS_UNIT = `eps`: unit energy
of every pair the engine can emit (R102), written with the NUM's own operations; the range of its `i` and `q` (R103;
DEDUCED, log entry 11: those of an emitted pair); and the exact pair at zero, of every NUM (R104). R92 gives no law that
ties ZERO to `ofInt 0`, and R104 does not say which of them its 0 and 0.0 are: the model takes ZERO for the argument,
and `ofInt 1` and `ofInt 0` for the two values (DESIGN CHOICE, log entry 19). -/
structure NumLawful (n : Numerics) (c : Config) (eps : n.Carrier) : Prop where
  energy_le : ∀ p, NumPresents n c p → n.ge eps (numEnergyError n p) = true
  energy_ge : ∀ p, NumPresents n c p → n.ge (numEnergyError n p) (n.sub n.zero eps) = true
  cos_range : ∀ p, NumPresents n c p → n.ge (n.ofInt 1) (n.cos p) = true ∧ n.ge (n.cos p) (n.ofInt (-1)) = true
  sin_range : ∀ p, NumPresents n c p → n.ge (n.ofInt 1) (n.sin p) = true ∧ n.ge (n.sin p) (n.ofInt (-1)) = true
  at_zero : numIqgen n n.zero = (n.ofInt 1, n.ofInt 0)

/-- The registers of a symbol in flight as reals. -/
noncomputable def InFlight.toNum (r : InFlight) : NumFlight numExact :=
  { shift := (r.shift : ℝ), inv := r.inv, idx := r.idx }

/-- The pair over NUM.exact that a recorded sample stands for (R107): IQGEN of its argument in radians. -/
noncomputable def Sample.toNum (x : Sample) : numExact.Carrier × numExact.Carrier := numIqgen numExact (radians x.theta)

/-- The state over NUM.exact that a state of the executable machine stands for (R106, R107): the phase in radians, the
pairs in place of their arguments. -/
noncomputable def State.toNum (s : State) : NumState numExact :=
  { cfg := s.cfg, phase := radians s.phase, flight := s.flight.map InFlight.toNum, out := s.out.map Sample.toNum }

end Sys2Proof.Machine
end

