-- ==== Sys2Proof/Safety.lean ====
section
/-! DEFINITION. What counts as a safe state and a well-behaved surrounding, in the terms the statements use. -/

namespace Sys2Proof.Machine

/-- The instance exists (CfgWF, spec/60_exceptions.md R182) and `idx` has not run past its symbol
(spec/10_state.md R27, spec/42_sample_step.md R130). -/
abbrev State.Sound (s : State) : Prop := s.cfg.WF ∧ ∀ r ∈ s.flight, r.idx < nsamp s.cfg

/-- Every symbol the host has still to present is in the alphabet (spec/70_reset_and_hazards.md R214). -/
abbrev State.ProgramInAlphabet (s : State) : Prop :=
  ∀ w ∈ s.program, ∀ value inv, decode w = .command (.synth value inv) → InAlphabet s.cfg value

/-- `shift` lies in [0, N) while it holds a value (spec/10_state.md R25). -/
abbrev State.ShiftInRange (s : State) : Prop :=
  ∀ r ∈ s.flight, 0 ≤ r.shift ∧ r.shift < (alphabetSize s.cfg : Rat)

/-- `phase` lies in (−π, π] (spec/10_state.md R22), in turns (−1/2, 1/2]. -/
abbrev State.PhaseInRange (s : State) : Prop := -(1 / 2) < s.phase ∧ s.phase ≤ 1 / 2

/-- For `k` units of progress nothing happens outside and the sink takes every pair. -/
abbrev State.QuietFor (s : State) (k : Nat) : Prop := ∀ i ∈ s.inputs.take k, i = Input.quiet

/-- Nothing happens outside in the coming unit of progress and the sink gives the answer `a`. -/
abbrev State.SinkSays (s : State) (a : SinkAnswer) : Prop :=
  (inputNow s).reset = false ∧ ((inputNow s).present = false ∨ s.program = []) ∧ (inputNow s).sink = a

/-- `k` units of progress, from `s`. -/
abbrev runFor (k : Nat) (s : State) : Host.Outcome State Fault Refusal := Host.Core.run Sys2Proof.core k s

end Sys2Proof.Machine
end

