-- ==== Sys2Proof/Certificates/Slice0/Obligations.lean ====
section
/-! DEFINITION. The statements about the block that the provers settle. Phases are in turns (log entry 2); a run of
`k` units of progress is `runFor k`. -/

open Sys2Proof Sys2Proof.Machine

/- Encoding (spec/30_encoding.md). -/

/-- Words of spec/95_test_vectors.md V18 and spec/30_encoding.md section 9, each read as the spec reads it. -/
def Obligations.SpecWordsDecode : Prop :=
  decode 0x10000000#32 = .command .reset ∧
  decode 0x20000020#32 = .command (.synth 32 false) ∧
  decode 0x210000FF#32 = .command (.synth 255 true) ∧
  decode 0x21FFFFFF#32 = .command (.synth 16777215 true) ∧
  (decode 0x00000000#32).instr? = none ∧ (decode 0x10000001#32).instr? = none ∧
  (decode 0x22000000#32).instr? = none ∧ (decode 0x2E000000#32).instr? = none ∧
  (decode 0x30000000#32).instr? = none ∧ (decode 0xFFFFFFFF#32).instr? = none

/-- R76 whole: what `decode` and `encode` are, and that they undo each other; a command has a word exactly when it is
well-formed. -/
def Obligations.DecodeAndEncodeAgree : Prop :=
  (∀ w : Word32, w = 0x10000000#32 → decode w = .command .reset) ∧
  (∀ w : Word32, w ≠ 0x10000000#32 → w.extractLsb' 25 7 = 0b0010000#7 →
    decode w = .command (.synth ((w.toNat % 2 ^ 24 : Nat) : Int) (w.getLsbD 24))) ∧
  (∀ w : Word32, w ≠ 0x10000000#32 → w.extractLsb' 25 7 ≠ 0b0010000#7 → ∃ why, decode w = .invalid why) ∧
  encode .reset = some 0x10000000#32 ∧
  (∀ (v : Int) (b : Bool), 0 ≤ v → v < 2 ^ 24 →
    ∃ w : Word32, encode (.synth v b) = some w ∧
      (w.toNat : Int) = 0x20000000 + (if b then 0x01000000 else 0) + v) ∧
  (∀ (v : Int) (b : Bool), ¬ (0 ≤ v ∧ v < 2 ^ 24) → encode (.synth v b) = none) ∧
  (∀ i w, encode i = some w → decode w = .command i) ∧
  (∀ w i, decode w = .command i → encode i = some w) ∧
  (∀ i : Instr, i.wellFormed = true ↔ ∃ w, encode i = some w)

/-- R73: a word spells a command exactly when it matches one of the two rows; the rows cannot both match; and the
command it spells is that row's. -/
def Obligations.OpcodeMapDecides : Prop :=
  (∀ w : Word32, (w &&& 0xFFFFFFFF#32 = 0x10000000#32 ↔ decode w = .command .reset)) ∧
  (∀ w : Word32, (w &&& 0xFE000000#32 = 0x20000000#32 ↔ ∃ v b, decode w = .command (.synth v b))) ∧
  (∀ w : Word32, ¬ (w &&& 0xFFFFFFFF#32 = 0x10000000#32 ∧ w &&& 0xFE000000#32 = 0x20000000#32)) ∧
  (∀ w : Word32, (∃ i, decode w = .command i) ↔ ∃ r ∈ opcodeMap, r.spells w = true) ∧
  (∀ w i, decode w = .command i → (rowOf i).spells w = true)

/-- R74: every reserved word decodes to `invalid`, and an idle block to which it is presented refuses it by name. -/
def Obligations.ReservedWordsAreRefused : Prop :=
  ∀ w : Word32,
    ((w.extractLsb' 28 4 ≠ 0x1#4 ∧ w.extractLsb' 28 4 ≠ 0x2#4) ∨
      (w.extractLsb' 28 4 = 0x1#4 ∧ w.extractLsb' 0 28 ≠ 0#28) ∨
      (w.extractLsb' 28 4 = 0x2#4 ∧ w.extractLsb' 25 3 ≠ 0#3)) →
    (∃ why, decode w = .invalid why) ∧
    (∀ s ws, s.cfg.WF → (inputNow s).reset = false → s.flight = none → s.program = w :: ws →
      step s = .refused .reservedCommand)

/-- R72: the operands of every word of the SYNTH row. -/
def Obligations.OperandAssembly : Prop :=
  ∀ w : Word32, w &&& 0xFE000000#32 = 0x20000000#32 →
    ∃ (v : Int) (b : Bool), decode w = .command (.synth v b) ∧
      v = ((w.extractLsb' 0 24).toNat : Int) ∧ 0 ≤ v ∧ v ≤ 16777215 ∧
      (b = true ↔ w.getLsbD 24 = true)

/-- R78, R158: the expansions, and the words they share with SYNTH. -/
def Obligations.PseudoCommandsExpand : Prop :=
  ∀ v : Int, 0 ≤ v → v < 2 ^ 24 →
    (Pseudo.upchirp v).expand = .synth v false ∧ (Pseudo.dnchirp v).expand = .synth v true ∧
    (∃ w : Word32, encode (Pseudo.upchirp v).expand = some w ∧ (w.toNat : Int) = 0x20000000 + v) ∧
    (∃ w : Word32, encode (Pseudo.dnchirp v).expand = some w ∧ (w.toNat : Int) = 0x21000000 + v)

/-- R77: a comment at the end of a line changes nothing, whatever it holds. -/
def Obligations.CommentsDoNotCount : Prop :=
  ∀ line comment : List Char, ';' ∉ line → parseLine (line ++ ';' :: comment) = parseLine line

/- Commands, reset and control (spec/41_control.md, spec/60_exceptions.md, spec/70_reset_and_hazards.md). -/

/-- A step runs exactly the command the decoder reads: where `withFetchWord` places it, for every state, and where an
idle block finds it at the head of the host's program. -/
def Obligations.StepRunsTheDecodedCommand : Prop :=
  (∀ (s : State) (nbits w : Nat) (i : Instr), decodeTableWord nbits w = some i →
    step (s.withFetchWord nbits w) = exec i s) ∧
  (∀ (s : State) (w : Word32) (ws : List Word32) (i : Instr),
    s.cfg.WF → (inputNow s).reset = false → s.flight = none → s.program = w :: ws → decode w = .command i →
    step s = exec i { s with program := ws, inputs := s.inputs.tail })

/-- R120 whole: what RESET does, when it is accepted, that it changes nothing on a fresh instance, that two equal one,
and that the next symbol's first pair is (1, 0) whatever came before. -/
def Obligations.ResetCommand : Prop :=
  (∀ s : State, s.cfg.WF → s.busy = false →
    exec .reset s = .next { s with phase := 0, flight := none } ∧
    exec .reset { s with phase := 0, flight := none } = .next { s with phase := 0, flight := none }) ∧
  (∀ s : State, s.cfg.WF → s.busy = true → exec .reset s = .refused .commandWhileBusy) ∧
  (∀ c : Config, c.WF → exec .reset (State.fresh c) = .next (State.fresh c)) ∧
  (∀ (s : State) (v : Int) (b : Bool), s.cfg.WF → s.busy = false → 0 < nsamp s.cfg → s.QuietFor 1 →
    ∃ r t u x, exec .reset s = .next r ∧ exec (.synth v b) r = .next t ∧ step t = .next u ∧
      u.out = s.out ++ [x] ∧ x.pair = (1, 0))

/-- R199: every command is refused while `busy` = 1, by `exec` and by a step in which the host presents one, before the
word is decoded (R189 e). -/
def Obligations.CommandWhileBusyIsRefused : Prop :=
  (∀ (i : Instr) (s : State), s.cfg.WF → s.busy = true → exec i s = .refused .commandWhileBusy) ∧
  (∀ (s : State) (w : Word32) (ws : List Word32), s.cfg.WF → s.busy = true → (inputNow s).reset = false →
    (inputNow s).present = true → s.program = w :: ws → step s = .refused .commandWhileBusy)

/-- R211 (c), R189 (a), R212: the hardware reset input, at any time, in a symbol or not, whatever else happens in the
same instant: the reset state of the registers, with the configuration and OUT kept; a command presented is not accepted.
The model's own choices in this whole next state, which no rule says: that command stays with the host, in `program`
(DESIGN CHOICE, log entry 6), and an abandoned symbol leaves no entry in `returns` (DESIGN CHOICE, log entry 13). -/
def Obligations.HardwareResetAtAnyTime : Prop :=
  ∀ s : State, s.cfg.WF → (inputNow s).reset = true →
    step s = .next { s with phase := 0, flight := none, inputs := s.inputs.tail }

/-- R37: what construction leaves, for every configuration, and so what `State.reset` holds. The configuration itself
is the model's choice (log entry 1) and no part of this statement. -/
def Obligations.ResetState : Prop :=
  (∀ c : Config, (State.fresh c).phase = 0 ∧ (State.fresh c).busy = false ∧ (State.fresh c).flight = none ∧
    (State.fresh c).out = [] ∧ (State.fresh c).cfg = c) ∧
  (∃ c : Config, State.reset = State.fresh c ∧ c.WF)

/-- R182, R121: construction accepts exactly the positive configurations with integer SF and FS, FS < BW among them,
binds them and gives the reset state. The last clause is the model's inference and not R182's, which speaks of
construction only (DEDUCED, log entry 14): a state that holds a configuration that is not CfgWF refuses every step, a
hardware reset and a symbol in flight included, and every command. -/
def Obligations.ConstructionChecksTheConfiguration : Prop :=
  (∀ (bw : Rat) (sf fs : Nat) (p : SinkFailPolicy), 0 < bw → 1 ≤ sf → 1 ≤ fs →
    construct bw sf fs p = .next (State.fresh { bw := bw, sf := sf, fs := fs, sinkFail := p })) ∧
  (∀ (bw sf fs : Rat) (p : SinkFailPolicy),
    ¬ (0 < bw ∧ (∃ m : Nat, 1 ≤ m ∧ sf = m) ∧ (∃ k : Nat, 1 ≤ k ∧ fs = k)) →
    construct bw sf fs p = .refused .invalidConfig) ∧
  (∀ s : State, ¬ s.cfg.WF → step s = .refused .invalidConfig ∧ ∀ i, exec i s = .refused .invalidConfig)

/-- R152: an idle block to which no command is presented waits. -/
def Obligations.IdleBlockWaits : Prop :=
  ∀ s : State, s.cfg.WF → s.flight = none → s.program = [] → (inputNow s).reset = false →
    step s = .next { s with inputs := s.inputs.tail }

/-- R21, R23, R122: between symbols no step writes `phase` but RESET and the hardware reset, which write 0. -/
def Obligations.IdlePhaseIsWrittenOnlyByReset : Prop :=
  ∀ s t : State, step s = .next t → s.flight = none → t.phase ≠ s.phase →
    t.phase = 0 ∧
    ((inputNow s).reset = true ∨ ∃ w ws, s.program = w :: ws ∧ decode w = .command .reset)

/-- R30, R29: no step changes the configuration. -/
def Obligations.ConfigurationNeverChanges : Prop :=
  ∀ (k : Nat) (s t : State), runFor k s = .next t → t.cfg = s.cfg

/- The symbol operation (spec/43_synth.md). -/

/-- R151: the acceptance transition of SYNTH, for every integer value, and its frame. -/
def Obligations.SynthStartTransition : Prop :=
  ∀ (s : State) (v : Int) (b : Bool), s.cfg.WF → s.busy = false → 0 < nsamp s.cfg →
    exec (.synth v b) s =
      .next { s with flight := some { shift := (v : Rat), inv := b, idx := 0, sinkFailed := false } }

/-- R153: with NSAMP = 0, which is BW > FS × N, SYNTH emits nothing, leaves the phase, and is over at once. That its
return is recorded as `done` is the model's, not R153's: the record is a DESIGN CHOICE (log entry 5), the entry in it
DEDUCED (log entry 12). -/
def Obligations.SynthWithNoSamples : Prop :=
  ∀ (s : State) (v : Int) (b : Bool), s.cfg.WF → s.busy = false →
    (s.cfg.fs : Rat) * 2 ^ s.cfg.sf < s.cfg.bw →
    exec (.synth v b) s = .next { s with returns := s.returns ++ [.done] }

/-- R154: the sample count, whatever the value, the direction and the phase. -/
def Obligations.SampleCount : Prop :=
  ∀ (s : State) (v : Int) (b : Bool), s.cfg.WF → s.busy = false → s.QuietFor (nsamp s.cfg) →
    ∃ t u, exec (.synth v b) s = .next t ∧ runFor (nsamp s.cfg) t = .next u ∧ u.busy = false ∧
      (u.out.length : Int) - s.out.length = ⌊(s.cfg.fs : Rat) * 2 ^ s.cfg.sf / s.cfg.bw⌋

/-- R155: the first pair of a symbol shows the phase at acceptance; after construction or RESET it is (1, 0). -/
def Obligations.FirstSampleShowsThePhaseBefore : Prop :=
  ∀ (s : State) (v : Int) (b : Bool), s.cfg.WF → s.busy = false → 0 < nsamp s.cfg → s.QuietFor 1 →
    ∃ t u x, exec (.synth v b) s = .next t ∧ step t = .next u ∧ u.out = s.out ++ [x] ∧
      x.pair = (Real.cos (2 * Real.pi * s.phase), Real.sin (2 * Real.pi * s.phase)) ∧
      (s.phase = 0 → x.pair = (1, 0))

/-- R156: the first pair of a symbol shows exactly the phase the symbol before it left, from any idle state. -/
def Obligations.PhaseIsContinuousAcrossSymbols : Prop :=
  ∀ (s : State) (v v' : Int) (b b' : Bool), s.cfg.WF → s.busy = false → 0 < nsamp s.cfg →
    s.QuietFor (2 * nsamp s.cfg) →
    ∃ t u t' u', exec (.synth v b) s = .next t ∧ runFor (nsamp s.cfg) t = .next u ∧
      exec (.synth v' b') u = .next t' ∧ t'.phase = u.phase ∧ runFor (nsamp s.cfg) t' = .next u' ∧
      u'.out[s.out.length + nsamp s.cfg]? = some { theta := u.phase }

/-- R166: the command-level SYNTH equals the start transition and NSAMP STEPs. -/
def Obligations.CommandLevelIsSampleLevel : Prop :=
  ∀ (s : State) (v : Int) (b : Bool), s.cfg.WF → s.busy = false → s.QuietFor (nsamp s.cfg) →
    ∃ t u, exec (.synth v b) s = .next t ∧ commandLevel (.synth v b) s = .next u ∧
      runFor (nsamp s.cfg) t = .next { u with inputs := s.inputs.drop (nsamp s.cfg) }

/-- R152, R27: the symbol is in flight with `idx` = k after k STEPs, for every k below NSAMP, and over after NSAMP. -/
def Obligations.SymbolRunsExactlyNsampSteps : Prop :=
  ∀ (s : State) (v : Int) (b : Bool), s.cfg.WF → s.busy = false → 0 < nsamp s.cfg →
    s.QuietFor (nsamp s.cfg) →
    ∃ t, exec (.synth v b) s = .next t ∧
      (∀ k, k < nsamp s.cfg → ∃ u r, runFor k t = .next u ∧ u.flight = some r ∧ r.idx = k ∧ r.inv = b) ∧
      (∃ u, runFor (nsamp s.cfg) t = .next u ∧ u.flight = none)

/-- R150 with block P150: a whole symbol in radians, in exact real arithmetic. -/
def Obligations.SymbolRefinesTheRadianRules : Prop :=
  (∀ (s : State) (v : Int) (b : Bool), s.cfg.WF → s.busy = false → s.QuietFor (nsamp s.cfg) →
    ∃ t u l, exec (.synth v b) s = .next t ∧ (t.busy = true ↔ nsamp s.cfg ≠ 0) ∧
      runFor (nsamp s.cfg) t = .next u ∧ u.busy = false ∧ u.out = s.out ++ l ∧ l.length = nsamp s.cfg ∧
      (l.map Sample.pair, radians u.phase) =
        numSynth numExact s.cfg v b (radians s.phase)) ∧
  (∀ (s : State) (v : Int) (b : Bool), s.cfg.WF → s.busy = true →
    exec (.synth v b) s = .refused .commandWhileBusy)

/-- R161, R66: what a run does to the registers and what it appends to OUT depends on nothing that was emitted or
returned before. -/
def Obligations.HistoryHasNoInfluence : Prop :=
  ∀ (k : Nat) (s s' : State),
    s'.cfg = s.cfg → s'.phase = s.phase → s'.flight = s.flight → s'.program = s.program → s'.inputs = s.inputs →
    (∀ r, runFor k s = .refused r → runFor k s' = .refused r) ∧
    (∀ f, runFor k s = .fault f → runFor k s' = .fault f) ∧
    (∀ t, runFor k s = .next t →
      ∃ t' l, runFor k s' = .next t' ∧ t'.phase = t.phase ∧ t'.flight = t.flight ∧ t'.program = t.program ∧
        t.out = s.out ++ l ∧ t'.out = s'.out ++ l)

/- The per-sample step (spec/42_sample_step.md) and numerics (spec/40_numerics.md). -/

/-- R106: one STEP in turns. -/
def Obligations.StepInTurns : Prop :=
  ∀ (s : State) (r : InFlight), s.cfg.WF → s.flight = some r → r.idx < nsamp s.cfg → s.SinkSays .accept →
    ∃ t, step s = .next t ∧
      (let st : Rat := s.cfg.bw / s.cfg.fs
       let n : Rat := 2 ^ s.cfg.sf
       let d : Rat := if r.inv then st / 2 + 1 / 4 - st / n * r.shift else st / n * r.shift + 1 / 4 - st / 2
       t.phase = (if 1 / 2 < s.phase + d then s.phase + d - 1 else s.phase + d) ∧
       (∃ x : Sample, t.out = s.out ++ [x] ∧
         x.pair = (Real.cos (2 * Real.pi * s.phase), Real.sin (2 * Real.pi * s.phase))) ∧
       (r.idx + 1 < nsamp s.cfg → ∃ r', t.flight = some r' ∧
         r'.shift = (if n ≤ r.shift + st then r.shift + st - n else r.shift + st)))

/-- R130 with block P130: one STEP is the step in radians, in exact real arithmetic, with its emit, its sequencing and
its frame. -/
def Obligations.StepRefinesTheRadianRules : Prop :=
  ∀ (s : State) (r : InFlight), s.cfg.WF → s.flight = some r → r.idx < nsamp s.cfg → s.SinkSays .accept →
    ∃ t x, step s = .next t ∧
      t.out = s.out ++ [x] ∧ x.pair = numIqgen numExact (radians s.phase) ∧
      radians t.phase = (numStep numExact (s.cfg.bw : ℝ) s.cfg.sf s.cfg.fs r.inv
        { phase := radians s.phase, shift := (r.shift : ℝ) }).phase ∧
      (r.idx + 1 < nsamp s.cfg → t.returns = s.returns ∧
        ∃ r', t.flight = some r' ∧ r'.inv = r.inv ∧ r'.idx = r.idx + 1 ∧ r'.sinkFailed = r.sinkFailed ∧
          (r'.shift : ℝ) = (numStep numExact (s.cfg.bw : ℝ) s.cfg.sf s.cfg.fs r.inv
            { phase := radians s.phase, shift := (r.shift : ℝ) }).shift) ∧
      (r.idx + 1 = nsamp s.cfg → t.flight = none) ∧
      t.cfg = s.cfg ∧ t.program = s.program ∧ t.inputs = s.inputs.tail

/-- R139: the STEP that makes `idx` = NSAMP ends the symbol, with its phase advanced in full; any other leaves it in
flight with `idx` one higher. The entry in `returns`, and the pending failure `sinkFailed` it shows, are the model's
record of the report R184 and R189 (b) ask for (DESIGN CHOICE, log entry 5). -/
def Obligations.StepIdxEndsTheSymbol : Prop :=
  ∀ (s : State) (r : InFlight), s.cfg.WF → s.flight = some r → r.idx < nsamp s.cfg → s.SinkSays .accept →
    (r.idx + 1 = nsamp s.cfg →
      step s = .next { s with
        phase := phaseNext s.cfg r.inv r.shift s.phase
        flight := none
        out := s.out ++ [{ theta := s.phase }]
        returns := s.returns ++ [if r.sinkFailed then .sinkFailure else .done]
        inputs := s.inputs.tail }) ∧
    (r.idx + 1 ≠ nsamp s.cfg →
      step s = .next { s with
        phase := phaseNext s.cfg r.inv r.shift s.phase
        flight := some { r with shift := shiftNext s.cfg r.shift, idx := r.idx + 1 }
        out := s.out ++ [{ theta := s.phase }]
        inputs := s.inputs.tail })

/-- R98: the strict and the non-strict comparison, at equality and on either side of it. -/
def Obligations.ComparisonsAtEquality : Prop :=
  (∀ θ : Rat, phaseWrap θ = θ ↔ θ ≤ 1 / 2) ∧ (∀ θ : Rat, 1 / 2 < θ → phaseWrap θ = θ - 1) ∧
  (∀ c : Config, shiftWrap c (2 ^ c.sf) = 0) ∧
  (∀ (c : Config) (x : Rat), shiftWrap c x = x ↔ x < 2 ^ c.sf) ∧
  (∀ (c : Config) (x : Rat), 2 ^ c.sf ≤ x → shiftWrap c x = x - 2 ^ c.sf)

/-- The document's own numbers, V1, V2 and V3: NSAMP = 2048, and the frequencies for value 32 and for the first step of
a down-chirp of value 0. -/
def Obligations.DocumentFrequencies : Prop :=
  nsamp Config.documentExample = 2048 ∧
  freqPre Config.documentExample false 32 = 15625 ∧ freqInst Config.documentExample false 32 = 203125 ∧
  freqPre Config.documentExample true 0 = 125000 ∧ freqInst Config.documentExample true 0 = 312500

/-- R141: the frequency band, and that no frequency is negative exactly when 2 × BW ≤ FS. -/
def Obligations.FrequencyBand : Prop :=
  ∀ c : Config, c.WF →
    (∀ x : Rat, 0 ≤ x → x < 2 ^ c.sf →
      (0 ≤ freqPre c false x ∧ freqPre c false x < c.bw) ∧
      (0 < freqPre c true x ∧ freqPre c true x ≤ c.bw) ∧
      (∀ b, (c.fs : Rat) / 4 - c.bw / 2 ≤ freqInst c b x ∧ freqInst c b x ≤ (c.fs : Rat) / 4 + c.bw / 2)) ∧
    ((∀ (b : Bool) (x : Rat), 0 ≤ x → x < 2 ^ c.sf → 0 ≤ freqInst c b x) ↔ 2 * c.bw ≤ c.fs)

/-- R142: the bounds on one advance of the phase, in turns, under each of the predicates of R9. -/
def Obligations.IncrementBounds : Prop :=
  ∀ (c : Config) (b : Bool) (x θ : Rat), c.WF → 0 ≤ x → x < 2 ^ c.sf →
    (1 / 4 - c.bw / c.fs / 2 ≤ phaseIncrement c b x ∧ phaseIncrement c b x ≤ 1 / 4 + c.bw / c.fs / 2) ∧
    (c.Valid → -(1 / 4) ≤ phaseIncrement c b x ∧ phaseIncrement c b x ≤ 3 / 4 ∧
      (θ ≤ 1 / 2 → θ + phaseIncrement c b x ≤ 5 / 4 ∧
        (1 / 2 < θ + phaseIncrement c b x → phaseNext c b x θ ≤ 1 / 4))) ∧
    (c.NonNegFreq → 0 ≤ phaseIncrement c b x ∧ phaseIncrement c b x ≤ 1 / 2 ∧
      (-(1 / 2) < θ → θ ≤ 1 / 2 → -(1 / 2) < phaseNext c b x θ ∧ phaseNext c b x θ ≤ 1 / 2))

/-- R138, C6: at a wrap of `shift` the pre-offset frequency falls by BW − BW × STEPSZ / N for an up-chirp, and rises by
as much for a down-chirp; where `shift` does not wrap it moves by BW × STEPSZ / N. -/
def Obligations.FrequencyJumpsAtTheShiftWrap : Prop :=
  ∀ (c : Config) (x : Rat), c.WF →
    (2 ^ c.sf ≤ x + c.bw / c.fs →
      freqPre c false (shiftNext c x) = freqPre c false x + c.bw * (c.bw / c.fs) / 2 ^ c.sf - c.bw ∧
      freqPre c true (shiftNext c x) = freqPre c true x - c.bw * (c.bw / c.fs) / 2 ^ c.sf + c.bw) ∧
    (x + c.bw / c.fs < 2 ^ c.sf →
      freqPre c false (shiftNext c x) = freqPre c false x + c.bw * (c.bw / c.fs) / 2 ^ c.sf ∧
      freqPre c true (shiftNext c x) = freqPre c true x - c.bw * (c.bw / c.fs) / 2 ^ c.sf)

/-- R159: at every sample index of the two directions of one value, the pre-offset frequencies add to BW and the
increments to half a turn. -/
def Obligations.InverseSymmetry : Prop :=
  ∀ (s : State) (v : Int) (k : Nat), s.cfg.WF → s.busy = false → k < nsamp s.cfg → s.QuietFor k →
    ∃ tu td uu ud ru rd,
      exec (.synth v false) s = .next tu ∧ exec (.synth v true) s = .next td ∧
      runFor k tu = .next uu ∧ runFor k td = .next ud ∧ uu.flight = some ru ∧ ud.flight = some rd ∧
      freqPre s.cfg true rd.shift = s.cfg.bw - freqPre s.cfg false ru.shift ∧
      phaseIncrement s.cfg true rd.shift + phaseIncrement s.cfg false ru.shift = 1 / 2

/-- R164: `shift` as the k-th STEP reads it, in closed form, with the frequency and the increment it gives. -/
def Obligations.ShiftClosedForm : Prop :=
  ∀ (s : State) (v : Int) (b : Bool) (k : Nat), s.cfg.WF → s.busy = false →
    0 ≤ v → v < 2 ^ s.cfg.sf → s.cfg.bw / s.cfg.fs ≤ 2 ^ s.cfg.sf → k < nsamp s.cfg → s.QuietFor k →
    ∃ t u r, exec (.synth v b) s = .next t ∧ runFor k t = .next u ∧ u.flight = some r ∧
      (let st : Rat := s.cfg.bw / s.cfg.fs
       let n : Rat := 2 ^ s.cfg.sf
       r.shift = v + k * st - n * ⌊((v : Rat) + k * st) / n⌋ ∧
       freqPre s.cfg b r.shift = (if b then s.cfg.bw - s.cfg.bw * r.shift / n else s.cfg.bw * r.shift / n) ∧
       phaseIncrement s.cfg b r.shift =
         (if b then st / 2 + 1 / 4 - st / n * r.shift else st / n * r.shift + 1 / 4 - st / 2))

/-- R165: the phase after a symbol is the phase before it, plus the increments, less the number of wraps that fired;
under the premises of R163 it lies in (−1/2, 1/2]. -/
def Obligations.PhaseClosedForm : Prop :=
  ∀ (s : State) (v : Int) (b : Bool), s.cfg.WF → s.busy = false → s.QuietFor (nsamp s.cfg) →
    ∃ t u, exec (.synth v b) s = .next t ∧ runFor (nsamp s.cfg) t = .next u ∧
      u.phase = s.phase + ((List.range (nsamp s.cfg)).map fun k => phaseIncrement s.cfg b (shiftAt s.cfg v k)).sum
        - ((List.range (nsamp s.cfg)).countP fun k =>
            decide (1 / 2 < phaseAt s.cfg v b s.phase k + phaseIncrement s.cfg b (shiftAt s.cfg v k))) ∧
      (s.cfg.NonNegFreq → InAlphabet s.cfg v → s.PhaseInRange → u.PhaseInRange)

/-- R167: the whole-symbol advance for an integer oversampling ratio m. -/
def Obligations.WholeSymbolAdvance : Prop :=
  ∀ (s : State) (v : Int) (b : Bool) (m : Nat), s.cfg.WF → s.busy = false → 1 ≤ m →
    (s.cfg.fs : Rat) = m * s.cfg.bw → 0 ≤ v → v < 2 ^ s.cfg.sf → s.QuietFor (nsamp s.cfg) →
    nsamp s.cfg = m * 2 ^ s.cfg.sf ∧
    (∀ j, j < m * 2 ^ s.cfg.sf → ∃! k, k < m * 2 ^ s.cfg.sf ∧ shiftAt s.cfg v k = (j : Rat) / m) ∧
    shiftAt s.cfg v (nsamp s.cfg) = v ∧
    ((List.range (nsamp s.cfg)).map fun k => phaseIncrement s.cfg b (shiftAt s.cfg v k)).sum =
      (m : Rat) * 2 ^ s.cfg.sf / 4 + (if b then 1 / (2 * (m : Rat)) else -(1 / (2 * (m : Rat)))) ∧
    (2 ≤ s.cfg.sf → ∃ t u, ∃ z : Int, exec (.synth v b) s = .next t ∧ runFor (nsamp s.cfg) t = .next u ∧
      u.phase = s.phase + (if b then 1 / (2 * (m : Rat)) else -(1 / (2 * (m : Rat)))) + z)

/-- R160: the cyclic wrap of the highest value, with the jump of the pre-offset frequency. -/
def Obligations.CyclicShiftWrapsAround : Prop :=
  ∀ c : Config, c.Valid →
    (∀ k : Nat, k < ⌈(c.fs : Rat) / c.bw⌉₊ →
      shiftAt c (2 ^ c.sf - 1) k = 2 ^ c.sf - 1 + k * (c.bw / c.fs) ∧ shiftAt c (2 ^ c.sf - 1) k < 2 ^ c.sf) ∧
    (shiftAt c (2 ^ c.sf - 1) ⌈(c.fs : Rat) / c.bw⌉₊ = ⌈(c.fs : Rat) / c.bw⌉₊ * (c.bw / c.fs) - 1 ∧
      0 ≤ shiftAt c (2 ^ c.sf - 1) ⌈(c.fs : Rat) / c.bw⌉₊ ∧
      shiftAt c (2 ^ c.sf - 1) ⌈(c.fs : Rat) / c.bw⌉₊ < c.bw / c.fs) ∧
    freqPre c false (shiftAt c (2 ^ c.sf - 1) ⌈(c.fs : Rat) / c.bw⌉₊) =
      freqPre c false (shiftAt c (2 ^ c.sf - 1) (⌈(c.fs : Rat) / c.bw⌉₊ - 1))
        - (c.bw - c.bw * (c.bw / c.fs) / 2 ^ c.sf)

/-- R157, R138, R99: an out-of-alphabet value runs the rules unchanged: `shift` starts at the value itself, loses
N − STEPSZ in a step where `shift` + STEPSZ is N or above (so at every `shift` at N or above, and at the wrap itself), climbs
by STEPSZ in every other (so at every negative one with `shift` + STEPSZ below N), and NSAMP pairs are emitted all the
same. -/
def Obligations.OutOfAlphabetRunsUnchanged : Prop :=
  ∀ (s : State) (v : Int) (b : Bool), s.cfg.WF → s.busy = false → ¬ InAlphabet s.cfg v →
    s.QuietFor (nsamp s.cfg) →
    (∃ t u, exec (.synth v b) s = .next t ∧ runFor (nsamp s.cfg) t = .next u ∧
      u.out.length = s.out.length + nsamp s.cfg ∧
      (∀ k, k < nsamp s.cfg → ∃ uk r, runFor k t = .next uk ∧ uk.flight = some r ∧ r.shift = shiftAt s.cfg v k)) ∧
    shiftAt s.cfg v 0 = v ∧
    (∀ k, (2 : Rat) ^ s.cfg.sf ≤ shiftAt s.cfg v k + s.cfg.bw / s.cfg.fs →
      shiftAt s.cfg v (k + 1) = shiftAt s.cfg v k - (2 ^ s.cfg.sf - s.cfg.bw / s.cfg.fs)) ∧
    (∀ k, shiftAt s.cfg v k + s.cfg.bw / s.cfg.fs < 2 ^ s.cfg.sf →
      shiftAt s.cfg v (k + 1) = shiftAt s.cfg v k + s.cfg.bw / s.cfg.fs)

/-- R94: NSAMP is the floor of the exact quotient; 0 exactly when BW > FS × N; exact where BW divides FS × N. -/
def Obligations.SampleCountIsTheFloor : Prop :=
  ∀ c : Config, c.WF →
    (nsamp c : Int) = ⌊(c.fs : Rat) * 2 ^ c.sf / c.bw⌋ ∧
    (nsamp c = 0 ↔ (c.fs : Rat) * 2 ^ c.sf < c.bw) ∧
    (∀ q : Nat, (c.fs : Rat) * 2 ^ c.sf = q * c.bw → nsamp c = q)

/-- R102, R103, R104 under NUM.exact, where ZERO is `ofInt 0`: exact arithmetic is lawful in every instance, with tolerance 0; and beyond what the engine can
present, at every real argument, it has unit energy and the range [−1, 1]. -/
def Obligations.ExactNumericsIsLawful : Prop :=
  (∀ c : Config, NumLawful numExact c (0 : ℝ)) ∧
  (∀ p i q : ℝ, numIqgen numExact p = (i, q) →
    i ^ 2 + q ^ 2 = 1 ∧ (-1 ≤ i ∧ i ≤ 1) ∧ (-1 ≤ q ∧ q ≤ 1)) ∧
  (∀ x : Sample, x.pair.1 ^ 2 + x.pair.2 ^ 2 = 1)

/-- R105: whole turns do not show in a pair, so the wrap of the phase never changes an emitted sample. -/
def Obligations.PhaseWrapDoesNotShow : Prop :=
  (∀ (p : ℝ) (k : Int), numIqgen numExact (p + 2 * Real.pi * (k : ℝ)) = numIqgen numExact p) ∧
  (∀ (θ : Rat) (k : Int), ({ theta := θ + k } : Sample).pair = ({ theta := θ } : Sample).pair) ∧
  (∀ θ : Rat, ({ theta := phaseWrap θ } : Sample).pair = ({ theta := θ } : Sample).pair)

/- The sink (spec/20_memory.md, spec/60_exceptions.md). -/

/-- R51, R52, R61 (c): a step appends at most one pair to OUT, only while a symbol is in flight, and the pair shows the
phase before the step. -/
def Obligations.OutGrowsByThePresentPhase : Prop :=
  ∀ s t : State, step s = .next t →
    t.out = s.out ∨ (s.busy = true ∧ t.out = s.out ++ [{ theta := s.phase }])

/-- R64: a sink that is not ready holds the engine; no register changes. -/
def Obligations.SinkNotReadyHoldsTheEngine : Prop :=
  ∀ (s : State) (r : InFlight), s.cfg.WF → s.flight = some r → r.idx < nsamp s.cfg → s.SinkSays .wait →
    step s = .next { s with inputs := s.inputs.tail }

/-- R185: under CONTINUE, whichever pairs the sink fails to take, the symbol ends after NSAMP steps with the phase it
would have had, OUT holds the other pairs in order, and the call reports whether one failed (R184, R189 b). The entry in
`returns` that holds the report is the model's record (DESIGN CHOICE, log entry 5). -/
def Obligations.ContinueIgnoresSinkFailures : Prop :=
  ∀ (s : State) (v : Int) (b : Bool), s.cfg.WF → s.busy = false → s.cfg.sinkFail = .continueSymbol →
    0 < nsamp s.cfg →
    (∀ i ∈ s.inputs.take (nsamp s.cfg), i.reset = false ∧ i.present = false ∧ i.sink ≠ .wait) →
    ∃ t u, exec (.synth v b) s = .next t ∧ runFor (nsamp s.cfg) t = .next u ∧ u.flight = none ∧
      u.phase = phaseAt s.cfg v b s.phase (nsamp s.cfg) ∧
      u.out = s.out ++ ((List.range (nsamp s.cfg)).filter fun k =>
          decide ((s.inputs.getD k Input.quiet).sink = .accept)).map
        (fun k => { theta := phaseAt s.cfg v b s.phase k }) ∧
      u.returns = s.returns ++
        [if ∃ i ∈ s.inputs.take (nsamp s.cfg), i.sink = .fail then .sinkFailure else .done]

/-- R186: under HALT, a failure on the pair of index k ends the symbol there: phase after exactly k complete steps, k
pairs in OUT, the failure reported, and the next command accepted with that phase. The entry in `returns` that holds the
report is the model's record (DESIGN CHOICE, log entry 5). -/
def Obligations.HaltEndsTheSymbol : Prop :=
  ∀ (s : State) (v : Int) (b : Bool) (k : Nat), s.cfg.WF → s.busy = false → s.cfg.sinkFail = .haltSymbol →
    k < nsamp s.cfg → s.QuietFor k → s.inputs[k]? = some { reset := false, present := false, sink := .fail } →
    ∃ t u, exec (.synth v b) s = .next t ∧ runFor (k + 1) t = .next u ∧
      u = { s with
        phase := phaseAt s.cfg v b s.phase k
        out := s.out ++ samplesUpTo s.cfg v b s.phase k
        returns := s.returns ++ [.sinkFailure]
        inputs := s.inputs.drop (k + 1) } ∧
      (∀ v' b', ∃ t', exec (.synth v' b') u = .next t' ∧ t'.phase = u.phase)

/- Invariants. -/

/-- R130, R27: in every sound state, `idx` below NSAMP while it holds a value, every step that goes on leads to a sound
state. -/
def Obligations.StepKeepsSoundness : Prop :=
  ∀ s t : State, s.Sound → step s = .next t → t.Sound

/-- A sound state never steps to a fault. -/
def Obligations.SoundStatesDoNotFault : Prop :=
  ∀ (s : State) (f : Fault), s.Sound → step s ≠ .fault f

/-- The invariants hold at reset, and in every freshly constructed instance that is CfgWF. -/
def Obligations.InvariantsHoldAtReset : Prop :=
  State.reset.Sound ∧ State.reset.ProgramInAlphabet ∧ State.reset.ShiftInRange ∧ State.reset.PhaseInRange ∧
  State.reset.cfg.NonNegFreq ∧
  (∀ c : Config, c.WF →
    (State.fresh c).Sound ∧ (State.fresh c).ProgramInAlphabet ∧ (State.fresh c).ShiftInRange ∧
    (State.fresh c).PhaseInRange)

/-- R25: with STEPSZ ≤ N and only alphabet symbols to come, `shift` stays in [0, N) through every step. -/
def Obligations.ShiftStaysInRange : Prop :=
  ∀ s t : State, s.cfg.bw / s.cfg.fs ≤ 2 ^ s.cfg.sf → s.ProgramInAlphabet → s.ShiftInRange → step s = .next t →
    t.ProgramInAlphabet ∧ t.ShiftInRange

/-- R163: under CfgNonNegFreq every step keeps `phase` in (−π, π], and so does the whole life of an instance, whatever the
outside world does; under CfgValid alone only the upper bound is kept, and the lower one does fail. -/
def Obligations.PhaseStaysInRange : Prop :=
  (∀ s t : State, s.cfg.NonNegFreq → s.ProgramInAlphabet → s.ShiftInRange → s.PhaseInRange → step s = .next t →
    t.ProgramInAlphabet ∧ t.ShiftInRange ∧ t.PhaseInRange) ∧
  (∀ s t : State, s.cfg.Valid → s.ProgramInAlphabet → s.ShiftInRange → s.phase ≤ 1 / 2 → step s = .next t →
    t.ProgramInAlphabet ∧ t.ShiftInRange ∧ t.phase ≤ 1 / 2) ∧
  (∀ (k : Nat) (c : Config) (program : List Word32) (inputs : List Input) (t : State), c.NonNegFreq →
    ({ State.fresh c with program := program, inputs := inputs } : State).ProgramInAlphabet →
    runFor k { State.fresh c with program := program, inputs := inputs } = .next t → t.PhaseInRange) ∧
  (∃ s t : State, s.cfg.Valid ∧ s.ProgramInAlphabet ∧ s.ShiftInRange ∧ s.PhaseInRange ∧ step s = .next t ∧
    ¬ t.PhaseInRange)

/-- C1, V14: on BW = FS = 16, SF = 4, four steps of SYNTH 0, 0 from phase 0 leave −5/8 turn: no lower wrap exists. -/
def Obligations.PhaseLeavesTheRangeWithoutALowerWrap : Prop :=
  ∃ t u, exec (.synth 0 false) (State.fresh { bw := 16, sf := 4, fs := 16, sinkFail := .continueSymbol }) = .next t ∧
    runFor 4 t = .next u ∧ u.phase = -(5 / 8)

/- The rules over any NUM (spec/40_numerics.md R92). -/

/-- R92, R91, R107: the executable machine is NUM.exact: construction, every command at both levels, every unit of the
engine's progress with every answer of the sink, and the hardware reset come to the same over NUM.exact, the phase in
radians and the pairs in place of their arguments. -/
def Obligations.MachineIsTheRulesOverExactNumerics : Prop :=
  (∀ (bw sf fs : Rat) (p : SinkFailPolicy),
    (∀ s, construct bw sf fs p = .next s → numConstruct numExact bw sf fs p = .next s.toNum) ∧
    (∀ why, construct bw sf fs p = .refused why → numConstruct numExact bw sf fs p = .refused why)) ∧
  (∀ (i : Instr) (s : State),
    (∀ t, exec i s = .next t → numExec i s.toNum = .next t.toNum) ∧
    (∀ why, exec i s = .refused why → numExec i s.toNum = .refused why) ∧
    (∀ t, commandLevel i s = .next t → numCommandLevel i s.toNum = .next t.toNum) ∧
    (∀ why, commandLevel i s = .refused why → numCommandLevel i s.toNum = .refused why)) ∧
  (∀ (s : State) (r : InFlight) (a : SinkAnswer),
    (∀ t, engine s r a = .next t → numEngine s.toNum r.toNum a = .next t.toNum) ∧
    (∀ f, engine s r a = .fault f → numEngine s.toNum r.toNum a = .fault f)) ∧
  (∀ s : State, (hardReset s).toNum = numResetRegisters s.toNum)

/-- R120, R121, R104 over every NUM: a constructed instance holds ZERO; RESET and twice RESET leave ZERO and touch
neither the configuration nor OUT; it is refused while busy; and where IQGEN(ZERO) = (1, 0), the first pair after it is
(1, 0). That the 1 and 0 are `ofInt 1` and `ofInt 0`, and the argument ZERO, is the model's choice (DESIGN CHOICE, log
entry 19). -/
def Obligations.ResetOverEveryNumerics : Prop :=
  ∀ n : Numerics,
    (∀ (bw : Rat) (sf fs : Nat) (p : SinkFailPolicy), 0 < bw → 1 ≤ sf → 1 ≤ fs →
      ∃ s, numConstruct n bw sf fs p = .next s ∧ s.cfg = { bw := bw, sf := sf, fs := fs, sinkFail := p } ∧
        s.phase = n.zero ∧ s.flight = none ∧ s.out = []) ∧
    (∀ s : NumState n, s.cfg.WF → s.flight = none →
      ∃ t, numExec .reset s = .next t ∧ t.phase = n.zero ∧ t.flight = none ∧ t.out = s.out ∧ t.cfg = s.cfg ∧
        numExec .reset t = .next t ∧
        (∀ (v : Int) (b : Bool), 0 < nsamp s.cfg → numIqgen n n.zero = (n.ofInt 1, n.ofInt 0) →
          ∃ u w, numExec (.synth v b) t = .next u ∧ numSteps 1 u = .next w ∧
            w.out = s.out ++ [(n.ofInt 1, n.ofInt 0)])) ∧
    (∀ s : NumState n, s.cfg.WF → s.flight ≠ none → ∀ i, numExec i s = .refused .commandWhileBusy)

/-- R150, R154 over every NUM: the start transition and NSAMP STEPs are the command-level SYNTH of block P150, which
appends NSAMP pairs. That the two levels agree for a NUM other than NUM.exact is the model's reading of R92, which claims
R166 for NUM.exact only. -/
def Obligations.CommandLevelIsSampleLevelOverEveryNumerics : Prop :=
  ∀ (n : Numerics) (s : NumState n) (v : Int) (b : Bool), s.cfg.WF → s.flight = none →
    ∃ t u l, numExec (.synth v b) s = .next t ∧ numCommandLevel (.synth v b) s = .next u ∧
      numSteps (nsamp s.cfg) t = .next u ∧ u.out = s.out ++ l ∧ l.length = nsamp s.cfg

/-- R21, R23: in every state, idle or in a symbol, a step that goes on leaves `phase` as it was, or sets it to 0 by RESET
or the hardware reset, or, in a symbol, writes what STEP.PHASE gives. -/
def Obligations.PhaseHasNoOtherWriter : Prop :=
  ∀ s t : State, step s = .next t →
    t.phase = s.phase ∨
    (t.phase = 0 ∧ ((inputNow s).reset = true ∨
      (s.flight = none ∧ ∃ w ws, s.program = w :: ws ∧ decode w = .command .reset))) ∨
    ((inputNow s).reset = false ∧ ∃ r, s.flight = some r ∧ r.idx < nsamp s.cfg ∧ (inputNow s).sink ≠ .wait ∧
      t.phase = phaseNext s.cfg r.inv r.shift s.phase)
end

