-- ==== Sys2Proof/Laws/Decode.lean ====
section
/-! SUPPORT. The number a SYNTH word is, and when a word lies in the SYNTH row. -/

namespace Sys2Proof

/-- The word of a well-formed SYNTH, as the number R76 of spec/30_encoding.md gives. -/
theorem encode_synth_toNat (value : Int) (inv : Bool) (h : (Instr.synth value inv).wellFormed = true) :
    ∃ w, encode (.synth value inv) = some w ∧
      w.toNat = 0x20000000 + (if inv then 0x01000000 else 0) + value.toNat ∧ value.toNat < 2 ^ 24 := by
  simp only [Instr.wellFormed, Bool.and_eq_true, decide_eq_true_eq, Config.valueBits] at h
  refine ⟨_, by simp only [encode, Config.valueBits, if_pos h]; rfl, ?_⟩
  obtain ⟨n, rfl⟩ := Int.eq_ofNat_of_zero_le h.1
  have hn : n < 16777216 := by have := h.2; norm_num at this; exact this
  refine ⟨?_, by simpa using hn⟩
  cases inv <;> simp [BitVec.toNat_add] <;> omega

/-- w[31:25] is the top of the word. -/
theorem synthRowField_toNat (w : Word32) : (synthRowField w).toNat = w.toNat / 2 ^ 25 := by
  have := w.isLt
  simp only [synthRowField, BitVec.extractLsb'_toNat, Nat.shiftRight_eq_div_pow]
  omega

/-- The mask and the match of the SYNTH row say that w[31:25] is 0b0010000. -/
theorem rowSynth_spells_iff (w : Word32) : rowSynth.spells w = true ↔ synthRowField w = 0b0010000#7 := by
  simp only [OpcodeRow.spells, rowSynth, beq_iff_eq, synthRowField]
  constructor
  · intro h
    apply BitVec.eq_of_getLsbD_eq
    intro i hi
    have hb := congrArg (fun x => BitVec.getLsbD x (25 + i)) h
    simp only [BitVec.getLsbD_and] at hb
    rw [BitVec.getLsbD_extractLsb']
    interval_cases i <;> simpa using hb
  · intro h
    apply BitVec.eq_of_getLsbD_eq
    intro i hi
    have hb := congrArg (fun x => BitVec.getLsbD x (i - 25)) h
    rw [BitVec.getLsbD_and]
    simp only [BitVec.getLsbD_extractLsb'] at hb
    interval_cases i <;> simp at hb ⊢ <;> assumption

/-- A word whose number lies in the SYNTH range is in the SYNTH row. -/
theorem rowSynth_spells_of_toNat (w : Word32) {inv : Bool} {n : Nat}
    (h : w.toNat = 0x20000000 + (if inv then 0x01000000 else 0) + n) (hn : n < 2 ^ 24) :
    rowSynth.spells w = true := by
  rw [rowSynth_spells_iff]
  apply BitVec.eq_of_toNat_eq
  rw [synthRowField_toNat, h]
  cases inv <;> simp <;> omega

end Sys2Proof
end

