-- ==== Sys2Proof/Laws/State.lean ====
section
/-! SUPPORT. One lemma per field per named update of State, so that no proof unfolds a record update. -/

namespace Sys2Proof.Machine

@[simp] theorem resetRegisters_cfg (s : State) : (resetRegisters s).cfg = s.cfg := rfl

@[simp] theorem resetRegisters_phase (s : State) : (resetRegisters s).phase = 0 := rfl

@[simp] theorem resetRegisters_flight (s : State) : (resetRegisters s).flight = none := rfl

@[simp] theorem resetRegisters_out (s : State) : (resetRegisters s).out = s.out := rfl

@[simp] theorem resetRegisters_returns (s : State) : (resetRegisters s).returns = s.returns := rfl

@[simp] theorem resetRegisters_program (s : State) : (resetRegisters s).program = s.program := rfl

@[simp] theorem resetRegisters_inputs (s : State) : (resetRegisters s).inputs = s.inputs := rfl

@[simp] theorem emit_cfg (s : State) (x : Sample) : (emit s x).cfg = s.cfg := rfl

@[simp] theorem emit_phase (s : State) (x : Sample) : (emit s x).phase = s.phase := rfl

@[simp] theorem emit_flight (s : State) (x : Sample) : (emit s x).flight = s.flight := rfl

@[simp] theorem emit_out (s : State) (x : Sample) : (emit s x).out = s.out ++ [x] := rfl

@[simp] theorem emit_returns (s : State) (x : Sample) : (emit s x).returns = s.returns := rfl

@[simp] theorem emit_program (s : State) (x : Sample) : (emit s x).program = s.program := rfl

@[simp] theorem emit_inputs (s : State) (x : Sample) : (emit s x).inputs = s.inputs := rfl

@[simp] theorem endSymbol_cfg (s : State) (f : Bool) : (endSymbol s f).cfg = s.cfg := rfl

@[simp] theorem endSymbol_phase (s : State) (f : Bool) : (endSymbol s f).phase = s.phase := rfl

@[simp] theorem endSymbol_flight (s : State) (f : Bool) : (endSymbol s f).flight = none := rfl

@[simp] theorem endSymbol_out (s : State) (f : Bool) : (endSymbol s f).out = s.out := rfl

@[simp] theorem endSymbol_returns (s : State) (f : Bool) : (endSymbol s f).returns = s.returns ++ [completionOf f] := rfl

@[simp] theorem endSymbol_program (s : State) (f : Bool) : (endSymbol s f).program = s.program := rfl

@[simp] theorem endSymbol_inputs (s : State) (f : Bool) : (endSymbol s f).inputs = s.inputs := rfl

@[simp] theorem inputTaken_cfg (s : State) : (inputTaken s).cfg = s.cfg := rfl

@[simp] theorem inputTaken_phase (s : State) : (inputTaken s).phase = s.phase := rfl

@[simp] theorem inputTaken_flight (s : State) : (inputTaken s).flight = s.flight := rfl

@[simp] theorem inputTaken_out (s : State) : (inputTaken s).out = s.out := rfl

@[simp] theorem inputTaken_returns (s : State) : (inputTaken s).returns = s.returns := rfl

@[simp] theorem inputTaken_program (s : State) : (inputTaken s).program = s.program := rfl

@[simp] theorem inputTaken_inputs (s : State) : (inputTaken s).inputs = s.inputs.tail := rfl

@[simp] theorem commandTaken_cfg (s : State) : (commandTaken s).cfg = s.cfg := rfl

@[simp] theorem commandTaken_phase (s : State) : (commandTaken s).phase = s.phase := rfl

@[simp] theorem commandTaken_flight (s : State) : (commandTaken s).flight = s.flight := rfl

@[simp] theorem commandTaken_out (s : State) : (commandTaken s).out = s.out := rfl

@[simp] theorem commandTaken_returns (s : State) : (commandTaken s).returns = s.returns := rfl

@[simp] theorem commandTaken_program (s : State) : (commandTaken s).program = s.program.tail := rfl

@[simp] theorem commandTaken_inputs (s : State) : (commandTaken s).inputs = s.inputs := rfl

@[simp] theorem presentNext_cfg (s : State) (w : Word32) : (presentNext s w).cfg = s.cfg := rfl

@[simp] theorem presentNext_phase (s : State) (w : Word32) : (presentNext s w).phase = s.phase := rfl

@[simp] theorem presentNext_flight (s : State) (w : Word32) : (presentNext s w).flight = s.flight := rfl

@[simp] theorem presentNext_out (s : State) (w : Word32) : (presentNext s w).out = s.out := rfl

@[simp] theorem presentNext_returns (s : State) (w : Word32) : (presentNext s w).returns = s.returns := rfl

@[simp] theorem presentNext_program (s : State) (w : Word32) : (presentNext s w).program = w :: s.program := rfl

@[simp] theorem presentNext_inputs (s : State) (w : Word32) :
    (presentNext s w).inputs = { reset := false, present := true, sink := .accept } :: s.inputs := rfl

@[simp] theorem hardReset_cfg (s : State) : (hardReset s).cfg = s.cfg := rfl

@[simp] theorem hardReset_phase (s : State) : (hardReset s).phase = 0 := rfl

@[simp] theorem hardReset_flight (s : State) : (hardReset s).flight = none := rfl

@[simp] theorem hardReset_out (s : State) : (hardReset s).out = s.out := rfl

@[simp] theorem hardReset_returns (s : State) : (hardReset s).returns = s.returns := rfl

@[simp] theorem hardReset_program (s : State) : (hardReset s).program = s.program := rfl

@[simp] theorem hardReset_inputs (s : State) : (hardReset s).inputs = s.inputs := rfl

@[simp] theorem synthesize_cfg (s : State) (v : Int) (b : Bool) : (synthesize s v b).cfg = s.cfg := rfl

@[simp] theorem synthesize_phase (s : State) (v : Int) (b : Bool) :
    (synthesize s v b).phase = phaseAt s.cfg v b s.phase (nsamp s.cfg) := rfl

@[simp] theorem synthesize_flight (s : State) (v : Int) (b : Bool) : (synthesize s v b).flight = none := rfl

@[simp] theorem synthesize_out (s : State) (v : Int) (b : Bool) :
    (synthesize s v b).out = s.out ++ samplesUpTo s.cfg v b s.phase (nsamp s.cfg) := rfl

@[simp] theorem synthesize_returns (s : State) (v : Int) (b : Bool) : (synthesize s v b).returns = s.returns ++ [.done] := rfl

@[simp] theorem synthesize_program (s : State) (v : Int) (b : Bool) : (synthesize s v b).program = s.program := rfl

@[simp] theorem synthesize_inputs (s : State) (v : Int) (b : Bool) : (synthesize s v b).inputs = s.inputs := rfl

@[simp] theorem fresh_cfg (c : Config) : (State.fresh c).cfg = c := rfl

@[simp] theorem fresh_phase (c : Config) : (State.fresh c).phase = 0 := rfl

@[simp] theorem fresh_flight (c : Config) : (State.fresh c).flight = none := rfl

@[simp] theorem fresh_out (c : Config) : (State.fresh c).out = [] := rfl

@[simp] theorem fresh_returns (c : Config) : (State.fresh c).returns = [] := rfl

@[simp] theorem fresh_program (c : Config) : (State.fresh c).program = [] := rfl

@[simp] theorem fresh_inputs (c : Config) : (State.fresh c).inputs = [] := rfl

theorem busy_eq_false {s : State} : s.busy = false ↔ s.flight = none := by simp [State.busy]

theorem busy_eq_true {s : State} : s.busy = true ↔ ∃ r, s.flight = some r := by
  simp [State.busy, Option.isSome_iff_exists]

end Sys2Proof.Machine
end

