-- ==== Sys2Proof/Laws/Numerics.lean ====
section
/-! SUPPORT. What the operations over a NUM can do, said once each; BW under NUM.exact; the fields of `State.toNum`;
and that an instance of a NUM keeps its configuration and can present ZERO. -/

namespace Sys2Proof.Machine

/-- Under NUM.exact, BW enters the rules as itself. -/
@[simp] theorem numBw_exact (c : Config) : numBw numExact c = (c.bw : ℝ) := by
  simp [numBw, numExact, Rat.cast_def c.bw]

@[simp] theorem toNum_cfg (s : State) : s.toNum.cfg = s.cfg := rfl
@[simp] theorem toNum_phase (s : State) : s.toNum.phase = radians s.phase := rfl
@[simp] theorem toNum_flight (s : State) : s.toNum.flight = s.flight.map InFlight.toNum := rfl
@[simp] theorem toNum_out (s : State) : s.toNum.out = s.out.map Sample.toNum := rfl
@[simp] theorem toNum_shift (r : InFlight) : r.toNum.shift = (r.shift : ℝ) := rfl
@[simp] theorem toNum_inv (r : InFlight) : r.toNum.inv = r.inv := rfl
@[simp] theorem toNum_idx (r : InFlight) : r.toNum.idx = r.idx := rfl

/-- The pair of a recorded sample is the same seen from NUM.exact. -/
theorem toNum_eq_pair (x : Sample) : x.toNum = x.pair := rfl

/-- The reset of the registers is the one over NUM.exact. -/
theorem toNum_resetRegisters (s : State) : (resetRegisters s).toNum = numResetRegisters s.toNum := by
  have h : radians 0 = numExact.zero := by simp [radians, numExact]
  simp only [State.toNum, resetRegisters, numResetRegisters, Option.map_none, h]

section
variable {n : Numerics} {c : Config}

@[simp] theorem numResetRegisters_cfg (s : NumState n) : (numResetRegisters s).cfg = s.cfg := rfl
@[simp] theorem numResetRegisters_phase (s : NumState n) : (numResetRegisters s).phase = n.zero := rfl
@[simp] theorem numResetRegisters_flight (s : NumState n) : (numResetRegisters s).flight = none := rfl
@[simp] theorem numResetRegisters_out (s : NumState n) : (numResetRegisters s).out = s.out := rfl
@[simp] theorem numEmit_cfg (s : NumState n) : (numEmit s).cfg = s.cfg := rfl
@[simp] theorem numEmit_phase (s : NumState n) : (numEmit s).phase = s.phase := rfl
@[simp] theorem numEmit_flight (s : NumState n) : (numEmit s).flight = s.flight := rfl
@[simp] theorem numEmit_out (s : NumState n) : (numEmit s).out = s.out ++ [numIqgen n s.phase] := rfl
@[simp] theorem numAdvance_cfg (s : NumState n) (r : NumFlight n) : (numAdvance s r).cfg = s.cfg := rfl
@[simp] theorem numAdvance_out (s : NumState n) (r : NumFlight n) : (numAdvance s r).out = s.out := rfl

/-- A command goes on exactly when the instance exists and is idle. -/
theorem numAccept_eq_next_iff {s t u : NumState n} :
    numAccept s t = .next u ↔ s.cfg.WF ∧ s.flight = none ∧ t = u := by
  unfold numAccept
  by_cases hw : s.cfg.WF
  · rw [if_neg (not_not.mpr hw)]
    cases hf : s.flight <;> simp [and_iff_right hw]
  · simp [hw]

/-- The start of a symbol: in flight with the operands latched, or over at once when there is nothing to emit. -/
theorem numBeginSymbol_cases (s : NumState n) (v : Int) (b : Bool) :
    (0 < nsamp s.cfg ∧ numBeginSymbol s v b = { s with flight := some { shift := n.ofInt v, inv := b, idx := 0 } }) ∨
    (nsamp s.cfg = 0 ∧ numBeginSymbol s v b = { s with flight := none }) := by
  unfold numBeginSymbol busyAtStart
  by_cases h : nsamp s.cfg = 0
  · exact .inr ⟨h, by simp [h]⟩
  · exact .inl ⟨Nat.pos_of_ne_zero h, by simp [h]⟩

@[simp] theorem numBeginSymbol_cfg (s : NumState n) (v : Int) (b : Bool) : (numBeginSymbol s v b).cfg = s.cfg := by
  unfold numBeginSymbol; split <;> rfl

@[simp] theorem numBeginSymbol_phase (s : NumState n) (v : Int) (b : Bool) : (numBeginSymbol s v b).phase = s.phase := by
  unfold numBeginSymbol; split <;> rfl

@[simp] theorem numBeginSymbol_out (s : NumState n) (v : Int) (b : Bool) : (numBeginSymbol s v b).out = s.out := by
  unfold numBeginSymbol; split <;> rfl

/-- Everything after the emit: the registers of block P130, then the symbol goes on or is over. -/
theorem numAdvance_cases (s : NumState n) (r : NumFlight n) :
    (numAdvance s r).phase = (numStepRegs s r).phase ∧
    ((r.idx + 1 ≠ nsamp s.cfg ∧
        (numAdvance s r).flight = some { r with shift := (numStepRegs s r).shift, idx := r.idx + 1 }) ∨
     (r.idx + 1 = nsamp s.cfg ∧ (numAdvance s r).flight = none)) := by
  refine ⟨rfl, ?_⟩
  unfold numAdvance busyAfterStep
  by_cases h : r.idx + 1 = nsamp s.cfg
  · exact .inr ⟨h, by simp [h]⟩
  · exact .inl ⟨h, by simp [h]⟩

/-- What the engine goes on to, by the sink's answer. -/
theorem numEngine_eq_next_iff {s t : NumState n} {r : NumFlight n} {a : SinkAnswer} :
    numEngine s r a = .next t ↔
      r.idx < nsamp s.cfg ∧
        ((a = .accept ∧ t = numAdvance (numEmit s) r) ∨ (a = .wait ∧ t = s) ∨ (a = .fail ∧ t = numFailed s r)) := by
  unfold numEngine
  by_cases h : r.idx < nsamp s.cfg
  · cases a <;> simp [h, eq_comm]
  · simp [h]

@[simp] theorem numFailed_cfg (s : NumState n) (r : NumFlight n) : (numFailed s r).cfg = s.cfg := by
  unfold numFailed; split <;> rfl

/-- A command of an instance keeps its configuration. -/
theorem numExec_cfg {i : Instr} {s t : NumState n} (h : numExec i s = .next t) : t.cfg = s.cfg := by
  cases i with
  | reset => rw [← (numAccept_eq_next_iff.mp h).2.2]; rfl
  | synth v b => rw [← (numAccept_eq_next_iff.mp h).2.2]; exact numBeginSymbol_cfg s v b

/-- An instance keeps the configuration it was constructed with (R30). -/
theorem numReachable_cfg {s : NumState n} (h : NumReachable n c s) : s.cfg = c := by
  induction h with
  | constructed => rfl
  | command i _ he ih => rw [numExec_cfg he, ih]
  | engine r a _ _ he ih =>
    rcases (numEngine_eq_next_iff.mp he).2 with ⟨-, rfl⟩ | ⟨-, rfl⟩ | ⟨-, rfl⟩
    · exact ih
    · exact ih
    · rw [numFailed_cfg, ih]
  | hardReset _ ih => exact ih

/-- Every instance that emits anything can present ZERO: the first pair of its first symbol (R155). -/
theorem numPresents_zero (hw : c.WF) (hn : 0 < nsamp c) : NumPresents n c n.zero := by
  refine ⟨numBeginSymbol (numFresh n c) 0 false, { shift := n.ofInt 0, inv := false, idx := 0 },
    .command (.synth 0 false) (.constructed hw) (numAccept_eq_next_iff.mpr ⟨hw, rfl, rfl⟩), ?_, hn, by simp [numFresh]⟩
  rcases numBeginSymbol_cases (numFresh n c) 0 false with h | h
  · rw [h.2]
  · exact absurd h.1 hn.ne'

end

end Sys2Proof.Machine
end

