-- ==== Sys2Proof/Laws/Ops.lean ====
section
/-! SUPPORT. What the shared operations can do, said once each: acceptance of a command, the start and the end of a
symbol, the engine. -/

namespace Sys2Proof.Machine

/-- A command goes on exactly when the instance exists and is idle. -/
theorem accept_eq_next_iff {s t u : State} : accept s t = .next u ↔ s.cfg.WF ∧ s.busy = false ∧ t = u := by
  unfold accept
  by_cases hw : s.cfg.WF
  · rw [if_neg (not_not.mpr hw)]
    cases hb : s.busy <;> simp [and_iff_right hw]
  · simp [hw]

theorem accept_idle {s : State} (t : State) (hw : s.cfg.WF) (hi : s.flight = none) : accept s t = .next t :=
  accept_eq_next_iff.mpr ⟨hw, busy_eq_false.mpr hi, rfl⟩

theorem accept_ne_fault {s t : State} {f : Fault} : accept s t ≠ .fault f := by
  unfold accept
  split <;> [skip; split] <;> simp

/-- The start of a symbol: in flight with the operands latched, or over at once when there is nothing to emit. -/
theorem beginSymbol_cases (s : State) (v : Int) (b : Bool) :
    (0 < nsamp s.cfg ∧ beginSymbol s v b =
      { s with flight := some { shift := (v : Rat), inv := b, idx := 0, sinkFailed := false } }) ∨
    (nsamp s.cfg = 0 ∧ beginSymbol s v b = endSymbol s false) := by
  unfold beginSymbol busyAtStart
  by_cases h : nsamp s.cfg = 0
  · exact .inr ⟨h, by simp [h]⟩
  · exact .inl ⟨Nat.pos_of_ne_zero h, by simp [h, operandShift]⟩

@[simp] theorem beginSymbol_phase (s : State) (v : Int) (b : Bool) : (beginSymbol s v b).phase = s.phase := by
  unfold beginSymbol; split <;> rfl

@[simp] theorem beginSymbol_cfg (s : State) (v : Int) (b : Bool) : (beginSymbol s v b).cfg = s.cfg := by
  unfold beginSymbol; split <;> rfl

@[simp] theorem beginSymbol_out (s : State) (v : Int) (b : Bool) : (beginSymbol s v b).out = s.out := by
  unfold beginSymbol; split <;> rfl

@[simp] theorem beginSymbol_program (s : State) (v : Int) (b : Bool) : (beginSymbol s v b).program = s.program := by
  unfold beginSymbol; split <;> rfl

@[simp] theorem beginSymbol_inputs (s : State) (v : Int) (b : Bool) : (beginSymbol s v b).inputs = s.inputs := by
  unfold beginSymbol; split <;> rfl

/-- The sequencer: the symbol goes on with `idx` one higher, or is over. -/
theorem stepIdx_cases (s : State) (r : InFlight) :
    (r.idx + 1 ≠ nsamp s.cfg ∧ stepIdx s r = { s with flight := some { r with idx := r.idx + 1 } }) ∨
    (r.idx + 1 = nsamp s.cfg ∧ stepIdx s r = endSymbol s r.sinkFailed) := by
  unfold stepIdx busyAfterStep
  by_cases h : r.idx + 1 = nsamp s.cfg
  · exact .inr ⟨h, by simp [h]⟩
  · exact .inl ⟨h, by simp [h]⟩

/-- Everything after the emit: the phase advanced in full, then the symbol goes on or is over. -/
theorem stepAdvance_cases (s : State) (r : InFlight) :
    (r.idx + 1 ≠ nsamp s.cfg ∧ stepAdvance s r =
      { s with
        phase := phaseNext s.cfg r.inv r.shift s.phase
        flight := some { r with shift := shiftNext s.cfg r.shift, idx := r.idx + 1 } }) ∨
    (r.idx + 1 = nsamp s.cfg ∧ stepAdvance s r =
      { s with
        phase := phaseNext s.cfg r.inv r.shift s.phase
        flight := none
        returns := s.returns ++ [completionOf r.sinkFailed] }) := by
  unfold stepAdvance
  rcases stepIdx_cases { s with phase := phaseNext s.cfg r.inv r.shift s.phase }
    { r with shift := shiftNext s.cfg r.shift } with h | h
  · exact .inl h
  · exact .inr h

/-- What the engine goes on to, by the sink's answer. -/
theorem engine_eq_next_iff {s t : State} {r : InFlight} {a : SinkAnswer} :
    engine s r a = .next t ↔
      r.idx < nsamp s.cfg ∧
        ((a = .accept ∧ t = stepAccepted s r) ∨ (a = .wait ∧ t = s) ∨ (a = .fail ∧ t = stepFailed s r)) := by
  unfold engine
  by_cases h : r.idx < nsamp s.cfg
  · cases a <;> simp [h, eq_comm]
  · simp [h]

/-- The engine faults exactly outside the precondition of a STEP. -/
theorem engine_eq_fault_iff {s : State} {r : InFlight} {a : SinkAnswer} {f : Fault} :
    engine s r a = .fault f ↔ nsamp s.cfg ≤ r.idx := by
  unfold engine
  by_cases h : r.idx < nsamp s.cfg
  · cases a <;> simp [h]
  · cases f; simp only [if_neg h, true_iff]; exact Nat.le_of_not_lt h

/-- A failing sink: the symbol goes on without the pair, or ends with nothing written but its report. -/
theorem stepFailed_cases (s : State) (r : InFlight) :
    (s.cfg.sinkFail = .continueSymbol ∧ stepFailed s r = stepAdvance s { r with sinkFailed := true }) ∨
    (s.cfg.sinkFail = .haltSymbol ∧ stepFailed s r = endSymbol s true) := by
  unfold stepFailed
  cases h : s.cfg.sinkFail
  · exact .inl ⟨rfl, rfl⟩
  · exact .inr ⟨rfl, rfl⟩

end Sys2Proof.Machine
end

