-- ==== Sys2Proof/Laws/PerInstr.lean ====
section
/-! SUPPORT. Families of statements about a command as syntax, one lemma per constructor of Instr. -/

/-- A well-formed command has a word, and that word carries the match of the command's own row of the opcode map
(spec/30_encoding.md R73). -/
def Sys2Proof.Laws.EncodesInItsRow.Statement (i : Sys2Proof.Instr) : Prop :=
  i.wellFormed = true → ∃ w, Sys2Proof.encode i = some w ∧ (Sys2Proof.rowOf i).spells w = true

theorem Sys2Proof.Laws.EncodesInItsRow.reset :
    Sys2Proof.Laws.EncodesInItsRow.Statement .reset :=
  fun _ => ⟨0x10000000#32, rfl, by decide⟩

theorem Sys2Proof.Laws.EncodesInItsRow.synth (value : Int) (inv : Bool) :
    Sys2Proof.Laws.EncodesInItsRow.Statement (.synth value inv) := by
  intro h
  obtain ⟨w, hw, hn, hlt⟩ := Sys2Proof.encode_synth_toNat value inv h
  exact ⟨w, hw, Sys2Proof.rowSynth_spells_of_toNat w hn hlt⟩
end

