-- ==== Sys2Proof/Laws/Step.lean ====
section
/-! SUPPORT. What `control` comes to in each situation, and everything a step that goes on can have done. -/

namespace Sys2Proof.Machine

theorem control_of_not_wf {s : State} (h : ¬ s.cfg.WF) : control s = .settled (.refused .invalidConfig) := by
  simp only [control, if_neg h]

theorem control_of_reset {s : State} (hw : s.cfg.WF) (hr : (inputNow s).reset = true) :
    control s = .settled (.next (hardReset (inputTaken s))) := by
  simp only [control, if_pos hw, arbitrate, if_pos hr]

theorem control_of_idle {s : State} (hw : s.cfg.WF) (hr : (inputNow s).reset = false) (hi : s.flight = none) :
    control s = idleAction (inputTaken s) := by
  simp only [control, if_pos hw, arbitrate, hr, hi, Bool.false_eq_true, if_false]

theorem control_of_busy {s : State} {r : InFlight} (hw : s.cfg.WF) (hr : (inputNow s).reset = false)
    (hb : s.flight = some r) : control s = busyAction (inputTaken s) r (inputNow s) := by
  simp only [control, if_pos hw, arbitrate, hr, hb, Bool.false_eq_true, if_false]

theorem idleAction_nil {s : State} (h : s.program = []) : idleAction s = .settled (.next s) := by
  simp only [idleAction, h]

theorem idleAction_cons {s : State} {w : Word32} {ws : List Word32} (h : s.program = w :: ws) :
    idleAction s = commandAction w (commandTaken s) := by
  simp only [idleAction, h]

theorem commandAction_command {w : Word32} {i : Instr} {s : State} (h : decode w = .command i) :
    commandAction w s = .run i s := by
  simp only [commandAction, h]

theorem commandAction_invalid {w : Word32} {why : Reserved} {s : State} (h : decode w = .invalid why) :
    commandAction w s = .settled (.refused .reservedCommand) := by
  simp only [commandAction, h]

theorem busyAction_engine {s : State} {r : InFlight} {i : Input} (h : i.present = false ∨ s.program = []) :
    busyAction s r i = .settled (engine s r i.sink) := by
  unfold busyAction
  rcases h with h | h <;> simp [h]

theorem busyAction_presented {s : State} {r : InFlight} {i : Input} (hp : i.present = true) (hc : s.program ≠ []) :
    busyAction s r i = .settled (.refused .commandWhileBusy) := by
  simp [busyAction, hp, hc]

/-- Everything a step that goes on can have done: a hardware reset, a wait without a command, an accepted RESET, an
accepted SYNTH, or a unit of the engine's progress. -/
theorem step_next_cases {s t : State} (h : step s = .next t) :
    s.cfg.WF ∧
      (((inputNow s).reset = true ∧ t = hardReset (inputTaken s)) ∨
       ((inputNow s).reset = false ∧ s.flight = none ∧ s.program = [] ∧ t = inputTaken s) ∨
       ((inputNow s).reset = false ∧ s.flight = none ∧ ∃ w ws, s.program = w :: ws ∧ decode w = .command .reset ∧
          t = resetRegisters (commandTaken (inputTaken s))) ∨
       ((inputNow s).reset = false ∧ s.flight = none ∧ ∃ w ws v b, s.program = w :: ws ∧
          decode w = .command (.synth v b) ∧ t = beginSymbol (commandTaken (inputTaken s)) v b) ∨
       ((inputNow s).reset = false ∧ ∃ r, s.flight = some r ∧
          engine (inputTaken s) r (inputNow s).sink = .next t)) := by
  by_cases hw : s.cfg.WF
  swap
  · simp [step, control_of_not_wf hw] at h
  refine ⟨hw, ?_⟩
  cases hr : (inputNow s).reset
  swap
  · simp only [step, control_of_reset hw hr, Host.Outcome.next.injEq] at h
    exact .inl ⟨rfl, h.symm⟩
  right
  cases hf : s.flight with
  | some r =>
    rw [step, control_of_busy hw hr hf] at h
    by_cases hp : (inputNow s).present = true ∧ s.program ≠ []
    · simp [busyAction_presented (s := inputTaken s) (r := r) hp.1 hp.2] at h
    · rw [busyAction_engine (by
        rw [inputTaken_program]
        by_cases hq : (inputNow s).present = true
        · exact .inr (by_contra fun hc => hp ⟨hq, hc⟩)
        · exact .inl (by simpa using hq))] at h
      exact .inr (.inr (.inr ⟨rfl, r, rfl, h⟩))
  | none =>
    rw [step, control_of_idle hw hr hf] at h
    cases hp : s.program with
    | nil =>
      rw [idleAction_nil (s := inputTaken s) hp] at h
      simp only [Host.Outcome.next.injEq] at h
      exact .inl ⟨rfl, rfl, rfl, h.symm⟩
    | cons w ws =>
      rw [idleAction_cons (s := inputTaken s) hp] at h
      cases hd : decode w with
      | invalid why => simp [commandAction_invalid hd] at h
      | command i =>
        rw [commandAction_command hd] at h
        cases i with
        | reset =>
          have h' := (accept_eq_next_iff.mp h).2.2
          exact .inr (.inl ⟨rfl, rfl, w, ws, rfl, hd, h'.symm⟩)
        | synth v b =>
          have h' := (accept_eq_next_iff.mp h).2.2
          exact .inr (.inr (.inl ⟨rfl, rfl, w, ws, v, b, rfl, hd, h'.symm⟩))

end Sys2Proof.Machine
end

