-- ==== Sys2Proof/Laws/Run.lean ====
section
/-! SUPPORT. How a run of several units of progress is taken apart, and what one unit comes to while a symbol is in
flight. -/

namespace Sys2Proof.Machine

theorem runFor_zero (s : State) : runFor 0 s = .next s := rfl

/-- A run whose first step goes on is the run of the rest. -/
theorem runFor_succ_of_next {s t : State} (k : Nat) (h : step s = .next t) : runFor (k + 1) s = runFor k t := by
  have h' : Sys2Proof.core.step s = .next t := h
  simp only [runFor, Host.Core.run, h']
  rfl

/-- A run that goes on took a first step that goes on. -/
theorem runFor_succ_eq_next {s u : State} {k : Nat} (h : runFor (k + 1) s = .next u) :
    ∃ t, step s = .next t ∧ runFor k t = .next u := by
  cases hs : step s with
  | next t => exact ⟨t, rfl, by rw [← runFor_succ_of_next k hs]; exact h⟩
  | fault f =>
    have h' : Sys2Proof.core.step s = .fault f := hs
    simp only [runFor, Host.Core.run, h'] at h
    cases h
  | refused r =>
    have h' : Sys2Proof.core.step s = .refused r := hs
    simp only [runFor, Host.Core.run, h'] at h
    cases h

/-- A run that goes on for `j` steps continues with the rest from there. -/
theorem runFor_add {s t : State} (j k : Nat) (h : runFor j s = .next t) : runFor (j + k) s = runFor k t := by
  induction j generalizing s with
  | zero =>
    rw [runFor_zero, Host.Outcome.next.injEq] at h
    rw [h, Nat.zero_add]
  | succ j ih =>
    obtain ⟨s', hs, hr⟩ := runFor_succ_eq_next h
    rw [Nat.add_right_comm, runFor_succ_of_next _ hs, ih hr]

/-- Unless a hardware reset or a command comes, a block with a symbol in flight does one unit of the engine's work. -/
theorem step_of_flight {s : State} {r : InFlight} {a : SinkAnswer} (hw : s.cfg.WF) (hf : s.flight = some r)
    (ha : s.SinkSays a) : step s = engine (inputTaken s) r a := by
  rw [step, control_of_busy hw ha.1 hf, busyAction_engine (s := inputTaken s) ha.2.1, ha.2.2]

/-- In a quiet instant the sink takes the pair. -/
theorem sinkSays_of_quiet {s : State} {k : Nat} (h : s.QuietFor (k + 1)) : s.SinkSays .accept := by
  have hq : inputNow s = Input.quiet := by
    unfold inputNow
    cases hl : s.inputs with
    | nil => rfl
    | cons a l => exact h a (by simp [hl])
  simp [State.SinkSays, hq, Input.quiet]

/-- What stays quiet for `k + 1` instants stays quiet for `k` after the first. -/
theorem quietFor_tail {s : State} {k : Nat} (h : s.QuietFor (k + 1)) : ∀ i ∈ s.inputs.tail.take k, i = Input.quiet := by
  intro i hi
  refine h i ?_
  cases hl : s.inputs with
  | nil => simp [hl] at hi
  | cons a l =>
    rw [hl, List.tail_cons] at hi
    simp [hi]

end Sys2Proof.Machine
end

