-- ==== Sys2Proof/Tests/Slice0.lean ====
section
/-! SUPPORT. The model's own tests, expected results from spec/95_test_vectors.md, spec/30_encoding.md section 9 or the
cited rule, and the witnesses that every statement's premises can be met. -/

namespace Sys2Proof.Tests

open Sys2Proof.Machine

/-- Configuration A of spec/95_test_vectors.md. -/
def cfgA : Config := { bw := 4, sf := 2, fs := 8, sinkFail := .continueSymbol }

/-- Configuration A with the other policy. -/
def cfgAHalt : Config := { cfgA with sinkFail := .haltSymbol }

/-- Configuration C of spec/95_test_vectors.md. -/
def cfgC : Config := { bw := 16, sf := 4, fs := 16, sinkFail := .continueSymbol }

/-- Configuration E of spec/95_test_vectors.md. -/
def cfgE : Config := { bw := 3, sf := 2, fs := 8, sinkFail := .continueSymbol }

/-- Configuration Z of spec/95_test_vectors.md. -/
def cfgZ : Config := { bw := 100, sf := 2, fs := 8, sinkFail := .continueSymbol }

/-- A configuration that is not CfgWF. -/
def cfgBad : Config := { bw := 0, sf := 2, fs := 8, sinkFail := .continueSymbol }

/-- An idle instance with phase `theta`. -/
def idle (c : Config) (theta : Rat) : State := { State.fresh c with phase := theta }

/-- An instance at sample `idx` of a symbol. -/
def busyAt (c : Config) (theta shift : Rat) (inv : Bool) (idx : Nat) : State :=
  { State.fresh c with phase := theta, flight := some { shift := shift, inv := inv, idx := idx, sinkFailed := false } }

/-- An instant in which the sink gives the answer `a`. -/
def sinkInput (a : SinkAnswer) : Input := { reset := false, present := false, sink := a }

/-- `phase` of the state an outcome goes on to. -/
def phaseOf : Host.Outcome State Fault Refusal → Option Rat
  | .next s => some s.phase
  | _ => none

/-- `shift` of the state an outcome goes on to. -/
def shiftOf : Host.Outcome State Fault Refusal → Option Rat
  | .next s => s.flight.map (·.shift)
  | _ => none

/-- `busy` of the state an outcome goes on to. -/
def busyOf : Host.Outcome State Fault Refusal → Option Bool
  | .next s => some s.busy
  | _ => none

/-- OUT of the state an outcome goes on to. -/
def outOf : Host.Outcome State Fault Refusal → Option (List Rat)
  | .next s => some (s.out.map fun x : Sample => x.theta)
  | _ => none

/-- The reason an outcome refuses. -/
def refusalOf : Host.Outcome State Fault Refusal → Option Refusal
  | .refused r => some r
  | _ => none

/- Encoding: the words of V18 and of spec/30_encoding.md section 9, written out bit by bit. -/

theorem test_decode_reset :
    decode (0b0001#4 ++ 0b0000000000000000000000000000#28) = .command .reset := by decide

theorem test_decode_synth_down_255 :
    decode (0b0010#4 ++ 0b000#3 ++ 0b1#1 ++ 0b000000000000000011111111#24) = .command (.synth 255 true) := by decide

theorem test_decode_synth_largest :
    decode (0b0010#4 ++ 0b000#3 ++ 0b0#1 ++ 0b111111111111111111111111#24) = .command (.synth 16777215 false) := by
  decide

theorem test_decode_reserved_opcodes :
    decode 0x00000000#32 = .invalid .opcode ∧ decode 0x30000000#32 = .invalid .opcode ∧
    decode 0xFFFFFFFF#32 = .invalid .opcode := by decide

theorem test_decode_reserved_fields :
    decode 0x10000001#32 = .invalid .resetOperand ∧ decode 0x22000000#32 = .invalid .synthZeroField ∧
    decode 0x2E000000#32 = .invalid .synthZeroField := by decide

theorem test_encode_words :
    encode .reset = some 0x10000000#32 ∧ encode (.synth 32 false) = some 0x20000020#32 ∧
    encode (.synth 16777215 true) = some 0x21FFFFFF#32 := by decide

/-- V18: these two have no word. -/
theorem test_encode_unencodable :
    encode (.synth 16777216 false) = none ∧ encode (.synth (-1) false) = none := by decide

theorem test_table_word : decodeTableWord 32 0x21000003 = some (.synth 3 true) := by decide

/- WellFormed: one ill-formed command for each check. -/

theorem test_wellFormed_refuses_negative : (Instr.synth (-1) false).wellFormed = false := by decide

theorem test_wellFormed_refuses_too_large : (Instr.synth 16777216 true).wellFormed = false := by decide

theorem test_wellFormed_accepts_edges :
    (Instr.synth 0 false).wellFormed = true ∧ (Instr.synth 16777215 true).wellFormed = true := by decide

/- Assembler: lines of P1, and a form R77 does not have. -/

theorem test_assemble_lines :
    parseLine ['R', 'E', 'S', 'E', 'T', ' ', ';', ' ', '0'] = .command .reset ∧
    parseLine ['D', 'N', 'C', 'H', 'I', 'R', 'P', ' ', '0', 'x', 'f', 'F'] = .command (.synth 255 true) ∧
    parseLine ['S', 'Y', 'N', 'T', 'H', ' ', '1', '2', ',', ' ', '1'] = .command (.synth 12 true) ∧
    parseLine ['S', 'Y', 'N', 'T', 'H', ' ', '3'] = .malformed ∧
    parseLine [';', ' ', 'c'] = .blank := by decide

theorem test_assemble_program :
    assemble [['R', 'E', 'S', 'E', 'T'], [], ['U', 'P', 'C', 'H', 'I', 'R', 'P', ' ', '0']] =
      some [0x10000000#32, 0x20000000#32] := by decide

/- RESET and SYNTH, one step each. -/

/-- V21, third row. -/
theorem test_reset_clears_phase : phaseOf (exec .reset (idle cfgA (1 / 2))) = some 0 := by decide +kernel

/-- V21, fourth row. -/
theorem test_reset_refused_while_busy :
    refusalOf (exec .reset (busyAt cfgA (3 / 16) (3 / 2) false 3)) = some .commandWhileBusy := by decide +kernel

/-- V15: a negative value enters `shift` unchanged. -/
theorem test_synth_latches_negative_value : shiftOf (exec (.synth (-1) false) (idle cfgA 0)) = some (-1) := by
  decide +kernel

/-- V16: NSAMP = 0 completes at acceptance. -/
theorem test_synth_without_samples : busyOf (exec (.synth 1 false) (idle cfgZ (1 / 8))) = some false := by
  decide +kernel

/- STEP, one step each. -/

/-- V10, k = 0: exactly half a turn is not wrapped. -/
theorem test_step_keeps_half_turn : phaseOf (step (busyAt cfgA 0 0 true 0)) = some (1 / 2) := by decide +kernel

/-- V9, k = 4: 5/8 turn is wrapped. -/
theorem test_step_wraps_phase : phaseOf (step (busyAt cfgA (3 / 8) 2 false 4)) = some (-(3 / 8)) := by decide +kernel

/-- V14, k = 2: below −1/2 turn nothing is added. -/
theorem test_step_has_no_lower_wrap : phaseOf (step (busyAt cfgC (-(7 / 16)) 2 false 2)) = some (-(9 / 16)) := by
  decide +kernel

/-- V13, k = 5: the fraction survives the wrap of `shift`. -/
theorem test_step_keeps_shift_fraction :
    shiftOf (step (busyAt cfgE (-(51 / 128)) (31 / 8) false 5)) = some (1 / 4) := by decide +kernel

/-- V15, SYNTH 9, k = 0: one subtraction only. -/
theorem test_step_wraps_shift_once : shiftOf (step (busyAt cfgA 0 9 false 0)) = some (11 / 2) := by decide +kernel

/-- V9, k = 7: the last step emits the phase it found, advances it in full and ends the symbol. -/
theorem test_step_last :
    outOf (step (busyAt cfgA (5 / 16) (7 / 2) false 7)) = some [5 / 16] ∧
    phaseOf (step (busyAt cfgA (5 / 16) (7 / 2) false 7)) = some (-(1 / 4)) ∧
    busyOf (step (busyAt cfgA (5 / 16) (7 / 2) false 7)) = some false := by decide +kernel

/-- V20: HALT on the pair of k = 3. -/
theorem test_step_halt :
    phaseOf (step { busyAt cfgAHalt (3 / 16) (3 / 2) false 3 with inputs := [sinkInput .fail] }) = some (3 / 16) ∧
    busyOf (step { busyAt cfgAHalt (3 / 16) (3 / 2) false 3 with inputs := [sinkInput .fail] }) = some false := by
  decide +kernel

/-- V21, last row: the hardware reset input in a symbol. -/
theorem test_hardware_reset :
    phaseOf (step { busyAt cfgA (3 / 16) (3 / 2) false 3 with
      inputs := [{ reset := true, present := true, sink := .accept }] }) = some 0 := by decide +kernel

/-- P5: a reserved word presented to an idle block. -/
theorem test_reserved_word_refused :
    refusalOf (step (State.reset.withFetchWord 32 0x30000000)) = some .reservedCommand := by decide +kernel

/-- R182: zero bandwidth and a fractional spreading factor are refused. -/
theorem test_construct_refuses :
    refusalOf (construct 0 2 8 .continueSymbol) = some .invalidConfig ∧
    refusalOf (construct 4 (5 / 2) 8 .continueSymbol) = some .invalidConfig := by decide +kernel

/-- The sample counts of the configuration table of spec/95_test_vectors.md. -/
theorem test_nsamp :
    nsamp cfgA = 8 ∧ nsamp cfgC = 16 ∧ nsamp cfgE = 10 ∧ nsamp cfgZ = 0 ∧
    nsamp { bw := 5 / 2, sf := 2, fs := 8, sinkFail := .continueSymbol } = 12 ∧
    nsamp Config.documentExample = 2048 := by decide +kernel

/- Witnesses: the premises of each statement, met together. -/

theorem witness_DecodeAndEncodeAgree :
    (0x210000FF#32 ≠ 0x10000000#32 ∧ (0x210000FF#32).extractLsb' 25 7 = 0b0010000#7) ∧
    (0x10000001#32 ≠ 0x10000000#32 ∧ (0x10000001#32).extractLsb' 25 7 ≠ 0b0010000#7) ∧
    ((0 : Int) ≤ 16777215 ∧ (16777215 : Int) < 2 ^ 24) ∧ ¬ ((0 : Int) ≤ 16777216 ∧ (16777216 : Int) < 2 ^ 24) ∧
    encode (.synth 16777215 true) = some 0x21FFFFFF#32 ∧ decode 0x21FFFFFF#32 = .command (.synth 16777215 true) := by
  decide

theorem witness_OpcodeMapDecides : decode 0x20FFFFFF#32 = .command (.synth 16777215 false) := by decide

/-- One word of each class of R74, and an idle block to which it is presented. -/
theorem witness_ReservedWordsAreRefused :
    ((0xF0000000#32).extractLsb' 28 4 ≠ 0x1#4 ∧ (0xF0000000#32).extractLsb' 28 4 ≠ 0x2#4) ∧
    ((0x18000000#32).extractLsb' 28 4 = 0x1#4 ∧ (0x18000000#32).extractLsb' 0 28 ≠ 0#28) ∧
    ((0x22000000#32).extractLsb' 28 4 = 0x2#4 ∧ (0x22000000#32).extractLsb' 25 3 ≠ 0#3) ∧
    cfgA.WF ∧ (inputNow { idle cfgA 0 with program := [0xF0000000#32] }).reset = false ∧
    (idle cfgA 0).flight = none := by decide

theorem witness_OperandAssembly :
    0x20000000#32 &&& 0xFE000000#32 = 0x20000000#32 ∧ 0x21FFFFFF#32 &&& 0xFE000000#32 = 0x20000000#32 := by decide

theorem witness_PseudoCommandsExpand : (0 : Int) ≤ 16777215 ∧ (16777215 : Int) < 2 ^ 24 := by decide

theorem witness_CommentsDoNotCount : ';' ∉ ['R', 'E', 'S', 'E', 'T'] := by decide

theorem witness_StepRunsTheDecodedCommand :
    decodeTableWord 32 0x21FFFFFF = some (.synth 16777215 true) ∧
    (let s := { idle cfgA 0 with program := [0x10000000#32] }
     s.cfg.WF ∧ (inputNow s).reset = false ∧ s.flight = none ∧ s.program = [0x10000000#32] ∧
       decode 0x10000000#32 = .command .reset) := by decide

/-- Idle and busy premises of RESET, and of the symbol after it. -/
theorem witness_ResetCommand :
    (cfgA.WF ∧ (idle cfgA (1 / 2)).busy = false ∧ 0 < nsamp cfgA ∧ (idle cfgA (1 / 2)).QuietFor 1) ∧
    (busyAt cfgA 0 0 false 0).busy = true := by decide +kernel

theorem witness_CommandWhileBusyIsRefused :
    let s := { busyAt cfgA 0 0 false 0 with
      program := [0x30000000#32], inputs := [{ reset := false, present := true, sink := .accept }] }
    s.cfg.WF ∧ s.busy = true ∧ (inputNow s).reset = false ∧ (inputNow s).present = true ∧
      s.program = [0x30000000#32] := by decide

theorem witness_HardwareResetAtAnyTime :
    let s := { busyAt cfgA (3 / 16) (3 / 2) false 3 with
      program := [0x20000000#32], inputs := [{ reset := true, present := true, sink := .fail }] }
    s.cfg.WF ∧ (inputNow s).reset = true := by decide

/-- An accepted offer, a refused one for each check, and a state whose configuration is not CfgWF. -/
theorem witness_ConstructionChecksTheConfiguration :
    (((0 : Rat) < 8 ∧ 1 ≤ 2 ∧ 1 ≤ 4) ∧ ¬ cfgBad.WF ∧ (idle cfgBad 0).cfg = cfgBad) ∧
    ¬ ((0 : Rat) < 0 ∧ (∃ m : Nat, 1 ≤ m ∧ (2 : Rat) = m) ∧ ∃ k : Nat, 1 ≤ k ∧ (8 : Rat) = k) ∧
    ¬ ((0 : Rat) < 4 ∧ (∃ m : Nat, 1 ≤ m ∧ (0 : Rat) = m) ∧ ∃ k : Nat, 1 ≤ k ∧ (8 : Rat) = k) ∧
    ¬ ((0 : Rat) < 4 ∧ (∃ m : Nat, 1 ≤ m ∧ (2 : Rat) = m) ∧ ∃ k : Nat, 1 ≤ k ∧ (-8 : Rat) = k) := by
  refine ⟨by decide, fun h => absurd h.1 (by decide), ?_, ?_⟩
  · rintro ⟨-, ⟨m, hm, h⟩, -⟩
    have : m = 0 := by exact_mod_cast h.symm
    omega
  · rintro ⟨-, -, k, hk, h⟩
    have hk' : (1 : Rat) ≤ k := by exact_mod_cast hk
    linarith

theorem witness_IdleBlockWaits :
    cfgA.WF ∧ (idle cfgA 0).flight = none ∧ (idle cfgA 0).program = [] ∧ (inputNow (idle cfgA 0)).reset = false := by
  decide

/-- A step from an idle state with another phase than the one before: RESET from half a turn. -/
theorem witness_IdlePhaseIsWrittenOnlyByReset :
    step { idle cfgA (1 / 2) with program := [0x10000000#32] } = .next (idle cfgA 0) ∧
    (idle cfgA 0).phase ≠ (idle cfgA (1 / 2)).phase := by
  exact ⟨by rfl, by decide +kernel⟩

theorem witness_ConfigurationNeverChanges : runFor 1 (idle cfgA 0) = .next (idle cfgA 0) := by rfl

/-- The premises that SynthStartTransition, SampleCount, CommandLevelIsSampleLevel, SymbolRunsExactlyNsampSteps,
SymbolRefinesTheRadianRules, FirstSampleShowsThePhaseBefore and PhaseIsContinuousAcrossSymbols share. -/
theorem witness_SynthStartTransition :
    cfgA.WF ∧ (idle cfgA (1 / 2)).busy = false ∧ 0 < nsamp cfgA := by decide +kernel

theorem witness_SynthWithNoSamples :
    cfgZ.WF ∧ (idle cfgZ (1 / 8)).busy = false ∧ (cfgZ.fs : Rat) * 2 ^ cfgZ.sf < cfgZ.bw := by decide +kernel

theorem witness_SampleCount : cfgE.WF ∧ (idle cfgE 0).busy = false ∧ (idle cfgE 0).QuietFor (nsamp cfgE) := by
  decide +kernel

theorem witness_FirstSampleShowsThePhaseBefore :
    cfgA.WF ∧ (idle cfgA 0).busy = false ∧ 0 < nsamp cfgA ∧ (idle cfgA 0).QuietFor 1 ∧ (idle cfgA 0).phase = 0 := by
  decide +kernel

theorem witness_PhaseIsContinuousAcrossSymbols :
    cfgA.WF ∧ (idle cfgA (-(1 / 4))).busy = false ∧ 0 < nsamp cfgA ∧
    (idle cfgA (-(1 / 4))).QuietFor (2 * nsamp cfgA) := by decide +kernel

theorem witness_CommandLevelIsSampleLevel :
    let s := { idle cfgA 0 with program := [0x20000001#32], inputs := [Input.quiet, Input.quiet] }
    s.cfg.WF ∧ s.busy = false ∧ s.QuietFor (nsamp cfgA) := by decide +kernel

theorem witness_SymbolRunsExactlyNsampSteps :
    cfgA.WF ∧ (idle cfgA 0).busy = false ∧ 0 < nsamp cfgA ∧ 7 < nsamp cfgA ∧ (idle cfgA 0).QuietFor (nsamp cfgA) := by
  decide +kernel

theorem witness_SymbolRefinesTheRadianRules :
    (cfgC.WF ∧ (idle cfgC 0).busy = false ∧ (idle cfgC 0).QuietFor (nsamp cfgC)) ∧
    (busyAt cfgC 0 0 false 0).busy = true := by decide +kernel

/-- Two states that differ in what was emitted and returned before, and a run of the first. -/
theorem witness_HistoryHasNoInfluence :
    let s := idle cfgA (1 / 2)
    let s' := { s with out := [{ theta := 1 / 8 }], returns := [.sinkFailure] }
    s'.cfg = s.cfg ∧ s'.phase = s.phase ∧ s'.flight = s.flight ∧ s'.program = s.program ∧ s'.inputs = s.inputs ∧
      s' ≠ s ∧ runFor 1 s = .next s :=
  ⟨rfl, rfl, rfl, rfl, rfl, by decide +kernel, rfl⟩

/-- The premises of a STEP the sink takes, not the last of its symbol and the last, in both directions. -/
theorem witness_StepInTurns :
    (let s := busyAt cfgA (3 / 8) 2 false 4
     s.cfg.WF ∧ s.flight = some { shift := 2, inv := false, idx := 4, sinkFailed := false } ∧ 4 < nsamp cfgA ∧
       4 + 1 < nsamp cfgA ∧ s.SinkSays .accept) ∧
    (let s := busyAt cfgA 0 (7 / 2) true 7
     s.flight = some { shift := 7 / 2, inv := true, idx := 7, sinkFailed := false } ∧ 7 < nsamp cfgA ∧
       7 + 1 = nsamp cfgA ∧ s.SinkSays .accept) := by decide +kernel

theorem witness_StepRefinesTheRadianRules :
    (let s := busyAt cfgC (-(1 / 4)) 1 false 1
     s.cfg.WF ∧ s.flight = some { shift := 1, inv := false, idx := 1, sinkFailed := false } ∧ 1 + 1 < nsamp cfgC ∧
       s.SinkSays .accept) ∧
    (let s := busyAt cfgC (-(3 / 16)) 15 false 15
     s.flight = some { shift := 15, inv := false, idx := 15, sinkFailed := false } ∧ 15 + 1 = nsamp cfgC ∧
       s.SinkSays .accept) := by decide +kernel

theorem witness_StepIdxEndsTheSymbol :
    (let s := busyAt cfgE 0 (11 / 8) false 9
     s.cfg.WF ∧ s.flight = some { shift := 11 / 8, inv := false, idx := 9, sinkFailed := false } ∧ 9 < nsamp cfgE ∧
       9 + 1 = nsamp cfgE ∧ s.SinkSays .accept) ∧
    (let s := busyAt cfgE 0 1 false 8
     s.flight = some { shift := 1, inv := false, idx := 8, sinkFailed := false } ∧ 8 < nsamp cfgE ∧
       8 + 1 ≠ nsamp cfgE ∧ s.SinkSays .accept) := by decide +kernel

/-- The thresholds themselves and the values next to them (V22). -/
theorem witness_ComparisonsAtEquality :
    ((1 : Rat) / 2 ≤ 1 / 2 ∧ (1 : Rat) / 2 < 1 / 2 + 1 / 16384) ∧
    ((2 : Rat) ^ cfgA.sf ≤ 4 ∧ (31 / 8 : Rat) < 2 ^ cfgA.sf) := by decide +kernel

theorem witness_FrequencyBand : cfgA.WF ∧ (0 : Rat) ≤ 0 ∧ (0 : Rat) < 2 ^ cfgA.sf ∧ (7 / 2 : Rat) < 2 ^ cfgA.sf := by
  decide +kernel

/-- The top of the phase range and of the shift range, with the advanced phase above half a turn. -/
theorem witness_IncrementBounds :
    cfgA.WF ∧ (0 : Rat) ≤ 7 / 2 ∧ (7 / 2 : Rat) < 2 ^ cfgA.sf ∧ cfgA.Valid ∧ cfgA.NonNegFreq ∧
    -((1 : Rat) / 2) < 1 / 2 ∧ (1 : Rat) / 2 ≤ 1 / 2 ∧ 1 / 2 < 1 / 2 + phaseIncrement cfgA false (7 / 2) := by
  decide +kernel

/-- `shift` reaching N exactly, and stopping short of it. -/
theorem witness_FrequencyJumpsAtTheShiftWrap :
    cfgA.WF ∧ (2 : Rat) ^ cfgA.sf ≤ 7 / 2 + cfgA.bw / cfgA.fs ∧ (3 : Rat) + cfgA.bw / cfgA.fs < 2 ^ cfgA.sf := by
  decide +kernel

theorem witness_InverseSymmetry :
    cfgA.WF ∧ (idle cfgA 0).busy = false ∧ 7 < nsamp cfgA ∧ (idle cfgA 0).QuietFor 7 := by decide +kernel

theorem witness_ShiftClosedForm :
    cfgE.WF ∧ (idle cfgE 0).busy = false ∧ (0 : Int) ≤ 3 ∧ (3 : Int) < 2 ^ cfgE.sf ∧
    cfgE.bw / cfgE.fs ≤ 2 ^ cfgE.sf ∧ 9 < nsamp cfgE ∧ (idle cfgE 0).QuietFor 9 := by decide +kernel

theorem witness_PhaseClosedForm :
    cfgA.WF ∧ (idle cfgA (1 / 2)).busy = false ∧ (idle cfgA (1 / 2)).QuietFor (nsamp cfgA) ∧ cfgA.NonNegFreq ∧
    InAlphabet cfgA 3 ∧ (idle cfgA (1 / 2)).PhaseInRange := by decide +kernel

/-- Oversampling by 2, the highest value of the alphabet, SF = 2. -/
theorem witness_WholeSymbolAdvance :
    cfgA.WF ∧ (idle cfgA 0).busy = false ∧ 1 ≤ 2 ∧ (cfgA.fs : Rat) = (2 : Nat) * cfgA.bw ∧ (0 : Int) ≤ 3 ∧
    (3 : Int) < 2 ^ cfgA.sf ∧ (idle cfgA 0).QuietFor (nsamp cfgA) ∧ 2 ≤ cfgA.sf := by decide +kernel

theorem witness_CyclicShiftWrapsAround : cfgA.Valid ∧ cfgC.Valid := by decide +kernel

/-- A value above the alphabet that stays above after a step, then in [N − STEPSZ, N) where the wrap fires (V15), and one
below it. -/
theorem witness_OutOfAlphabetRunsUnchanged :
    cfgA.WF ∧ (idle cfgA 0).busy = false ∧ ¬ InAlphabet cfgA 9 ∧ ¬ InAlphabet cfgA (-1) ∧ ¬ InAlphabet cfgA 4 ∧
    (idle cfgA 0).QuietFor (nsamp cfgA) ∧ (2 : Rat) ^ cfgA.sf ≤ shiftAt cfgA 9 1 + cfgA.bw / cfgA.fs ∧
    shiftAt cfgA 9 5 = 7 / 2 ∧ (2 : Rat) ^ cfgA.sf ≤ shiftAt cfgA 9 5 + cfgA.bw / cfgA.fs ∧
    shiftAt cfgA (-1) 0 + cfgA.bw / cfgA.fs < 2 ^ cfgA.sf := by decide +kernel

theorem witness_SampleCountIsTheFloor :
    (cfgE.WF ∧ cfgZ.WF ∧ (cfgZ.fs : Rat) * 2 ^ cfgZ.sf < cfgZ.bw) ∧
    (cfgA.fs : Rat) * 2 ^ cfgA.sf = (8 : Nat) * cfgA.bw := by decide +kernel

theorem witness_OutGrowsByThePresentPhase : busyOf (step (busyAt cfgA 0 0 false 0)) = some true := by decide +kernel

theorem witness_SinkNotReadyHoldsTheEngine :
    let s := { busyAt cfgA (3 / 16) (3 / 2) false 3 with inputs := [sinkInput .wait] }
    s.cfg.WF ∧ s.flight = some { shift := 3 / 2, inv := false, idx := 3, sinkFailed := false } ∧ 3 < nsamp cfgA ∧
      s.SinkSays .wait := by decide +kernel

/-- The first and the last pair of a symbol failing, under CONTINUE. -/
theorem witness_ContinueIgnoresSinkFailures :
    let s := { idle cfgA 0 with inputs := sinkInput .fail :: List.replicate 6 Input.quiet ++ [sinkInput .fail] }
    s.cfg.WF ∧ s.busy = false ∧ s.cfg.sinkFail = .continueSymbol ∧ 0 < nsamp cfgA ∧
      ∀ i ∈ s.inputs.take (nsamp cfgA), i.reset = false ∧ i.present = false ∧ i.sink ≠ .wait := by decide +kernel

/-- The first pair of a symbol failing, and the last, under HALT. -/
theorem witness_HaltEndsTheSymbol :
    (let s := { idle cfgAHalt 0 with inputs := [sinkInput .fail] }
     s.cfg.WF ∧ s.busy = false ∧ s.cfg.sinkFail = .haltSymbol ∧ 0 < nsamp cfgAHalt ∧ s.QuietFor 0 ∧
       s.inputs[0]? = some { reset := false, present := false, sink := .fail }) ∧
    (let s := { idle cfgAHalt 0 with inputs := List.replicate 7 Input.quiet ++ [sinkInput .fail] }
     7 < nsamp cfgAHalt ∧ s.QuietFor 7 ∧ s.inputs[7]? = some { reset := false, present := false, sink := .fail }) := by
  decide +kernel

/-- A sound state in a symbol, and the step it goes on with. -/
theorem witness_StepKeepsSoundness :
    (busyAt cfgA 0 0 false 0).Sound ∧ busyOf (step (busyAt cfgA 0 0 false 0)) = some true := by
  refine ⟨⟨by decide +kernel, ?_⟩, by decide +kernel⟩
  intro r hr
  cases hr
  decide +kernel

theorem witness_SoundStatesDoNotFault : (idle cfgA 0).Sound := ⟨by decide, fun r hr => by cases hr⟩

/-- The last step of a symbol, from the top of the phase range, with a symbol of the highest value to come. -/
def lastStep : State := { busyAt cfgA (1 / 2) (7 / 2) false 7 with program := [0x20000003#32] }

/-- A state in a symbol, with an alphabet symbol to come, under CfgNonNegFreq. -/
theorem witness_ShiftStaysInRange :
    cfgA.bw / cfgA.fs ≤ 2 ^ cfgA.sf ∧ lastStep.cfg = cfgA ∧ lastStep.ProgramInAlphabet ∧ lastStep.ShiftInRange ∧
    busyOf (step lastStep) = some false := by
  refine ⟨by decide +kernel, rfl, ?_, ?_, by decide +kernel⟩
  · intro w hw v b hd
    obtain rfl := List.mem_singleton.mp hw
    have h : Decoded.command (.synth 3 false) = .command (.synth v b) := by rw [← hd]; decide
    cases h
    decide
  · intro r hr
    cases hr
    decide +kernel

/-- The same state meets the premises of both step clauses of PhaseStaysInRange. -/
theorem witness_PhaseStaysInRange :
    lastStep.cfg.NonNegFreq ∧ lastStep.cfg.Valid ∧ lastStep.ProgramInAlphabet ∧ lastStep.ShiftInRange ∧
    lastStep.PhaseInRange :=
  ⟨by decide +kernel, by decide +kernel, witness_ShiftStaysInRange.2.2.1, witness_ShiftStaysInRange.2.2.2.1,
    by decide +kernel⟩

/-- A run of a fresh instance with an alphabet symbol to come. -/
theorem witness_PhaseStaysInRange_run :
    cfgA.NonNegFreq ∧
    ({ State.fresh cfgA with program := [0x20000003#32], inputs := [] } : State).ProgramInAlphabet ∧
    busyOf (runFor 1 { State.fresh cfgA with program := [0x20000003#32], inputs := [] }) = some true :=
  ⟨by decide +kernel, witness_ShiftStaysInRange.2.2.1, by decide +kernel⟩

/-- Something the engine over NUM.exact can present: NumLawful is asked of it. -/
theorem witness_ExactNumericsIsLawful : NumPresents numExact cfgA (0 : ℝ) :=
  numPresents_zero (n := numExact) (by decide +kernel) (by decide +kernel)

/-- An accepted construction and a refused one, an accepted command and a refused one, an engine that goes on and one
that faults. -/
theorem witness_MachineIsTheRulesOverExactNumerics :
    construct 4 2 8 .continueSymbol = .next (State.fresh cfgA) ∧
    construct 0 2 8 .continueSymbol = .refused .invalidConfig ∧
    exec .reset (idle cfgA (1 / 2)) = .next (idle cfgA 0) ∧
    exec .reset (busyAt cfgA 0 0 false 0) = .refused .commandWhileBusy ∧
    commandLevel .reset (idle cfgA (1 / 2)) = .next (idle cfgA 0) ∧
    commandLevel .reset (busyAt cfgA 0 0 false 0) = .refused .commandWhileBusy ∧
    engine (idle cfgA 0) { shift := 0, inv := false, idx := 0, sinkFailed := false } .wait = .next (idle cfgA 0) ∧
    engine (idle cfgA 0) { shift := 0, inv := false, idx := 8, sinkFailed := false } .wait =
      .fault .stepBeyondSymbol := by
  refine ⟨?_, ?_, rfl, rfl, rfl, rfl, ?_, ?_⟩
  · exact (if_pos (by decide +kernel)).trans rfl
  · exact if_neg (by decide +kernel)
  · exact if_pos (by decide +kernel)
  · exact if_neg (by decide +kernel)

/-- A freshly constructed instance over NUM.exact, idle, and the same one in a symbol. -/
theorem witness_ResetOverEveryNumerics :
    ((0 : Rat) < 4 ∧ 1 ≤ 2 ∧ 1 ≤ 8) ∧ (numFresh numExact cfgA).cfg.WF ∧ (numFresh numExact cfgA).flight = none ∧
    0 < nsamp (numFresh numExact cfgA).cfg ∧ (numBeginSymbol (numFresh numExact cfgA) 3 true).cfg.WF ∧
    (numBeginSymbol (numFresh numExact cfgA) 3 true).flight ≠ none ∧
    numIqgen numExact numExact.zero = (numExact.ofInt 1, numExact.ofInt 0) := by
  have hn : 0 < nsamp cfgA := by decide +kernel
  refine ⟨by decide +kernel, by decide +kernel, rfl, hn, by decide +kernel, ?_, by simp [numIqgen, numExact]⟩
  rcases numBeginSymbol_cases (numFresh numExact cfgA) 3 true with h | h
  · rw [h.2]; exact Option.some_ne_none _
  · exact absurd h.1 hn.ne'

theorem witness_CommandLevelIsSampleLevelOverEveryNumerics :
    (numFresh numExact cfgA).cfg.WF ∧ (numFresh numExact cfgA).flight = none := ⟨by decide +kernel, rfl⟩

theorem witness_PhaseHasNoOtherWriter : busyOf (step (busyAt cfgA 0 0 false 0)) = some true := by decide +kernel

end Sys2Proof.Tests
end

namespace Sys2Proof.Machine

/-! Lemmas on what the rest of a STEP and the sink's failure write, and what every step keeps. -/

/-- A STEP writes the phase of STEP.PHASE whether its symbol goes on or ends (spec/42_sample_step.md R135, R136). -/
@[simp] theorem stepAdvance_phase (s : State) (r : InFlight) :
    (stepAdvance s r).phase = phaseNext s.cfg r.inv r.shift s.phase := by
  rcases stepAdvance_cases s r with ⟨-, h⟩ | ⟨-, h⟩ <;> rw [h]

@[simp] theorem stepAdvance_cfg (s : State) (r : InFlight) : (stepAdvance s r).cfg = s.cfg := by
  rcases stepAdvance_cases s r with ⟨-, h⟩ | ⟨-, h⟩ <;> rw [h]

@[simp] theorem stepAdvance_program (s : State) (r : InFlight) : (stepAdvance s r).program = s.program := by
  rcases stepAdvance_cases s r with ⟨-, h⟩ | ⟨-, h⟩ <;> rw [h]

/-- Where the symbol goes on after a STEP, `shift` is what STEP.SHIFT gives. -/
theorem stepAdvance_shift {s : State} {r r' : InFlight} (h : r' ∈ (stepAdvance s r).flight) :
    r'.shift = shiftNext s.cfg r.shift := by
  rcases stepAdvance_cases s r with ⟨-, ht⟩ | ⟨-, ht⟩ <;> rw [ht] at h <;> cases h
  rfl

/-- A unit of the engine's progress is a wait, a symbol ended before anything of its step is written (HALT), or a STEP
from the registers, with or without the pair and with or without a failure to report. -/
theorem engine_next_cases {s t : State} {r : InFlight} {a : SinkAnswer} (h : engine s r a = .next t) :
    r.idx < nsamp s.cfg ∧
      ((a = .wait ∧ t = s) ∨ (a = .fail ∧ t = endSymbol s true) ∨
       (a ≠ .wait ∧ ∃ out f, t = stepAdvance { s with out := out } { r with sinkFailed := f })) := by
  obtain ⟨hidx, ⟨rfl, rfl⟩ | hwait | ⟨rfl, rfl⟩⟩ := engine_eq_next_iff.mp h
  · exact ⟨hidx, .inr (.inr ⟨by decide, _, r.sinkFailed, rfl⟩)⟩
  · exact ⟨hidx, .inl hwait⟩
  · rcases stepFailed_cases s r with ⟨-, ht⟩ | ⟨-, ht⟩
    · exact ⟨hidx, .inr (.inr ⟨by decide, s.out, true, ht⟩)⟩
    · exact ⟨hidx, .inr (.inl ⟨rfl, ht⟩)⟩

/-- The engine leaves the configuration and the host's commands as they are. -/
theorem engine_frame {s t : State} {r : InFlight} {a : SinkAnswer} (h : engine s r a = .next t) :
    t.cfg = s.cfg ∧ t.program = s.program := by
  obtain ⟨-, ⟨-, rfl⟩ | ⟨-, rfl⟩ | ⟨-, out, f, rfl⟩⟩ := engine_next_cases h <;> simp

/-- The engine keeps the phase or writes what STEP.PHASE gives, and the latter never while the sink makes it wait. -/
theorem engine_phase {s t : State} {r : InFlight} {a : SinkAnswer} (h : engine s r a = .next t) :
    t.phase = s.phase ∨ (a ≠ .wait ∧ t.phase = phaseNext s.cfg r.inv r.shift s.phase) := by
  obtain ⟨-, ⟨-, rfl⟩ | ⟨-, rfl⟩ | ⟨ha, out, f, rfl⟩⟩ := engine_next_cases h
  · exact .inl rfl
  · exact .inl rfl
  · exact .inr ⟨ha, stepAdvance_phase _ _⟩

/-- Where a symbol is in flight after the engine's work, `shift` is the one before or what STEP.SHIFT gives. -/
theorem engine_shift {s t : State} {r r' : InFlight} {a : SinkAnswer} (h : engine s r a = .next t)
    (hf : s.flight = some r) (hr : r' ∈ t.flight) : r'.shift = r.shift ∨ r'.shift = shiftNext s.cfg r.shift := by
  obtain ⟨-, ⟨-, rfl⟩ | ⟨-, rfl⟩ | ⟨-, out, f, rfl⟩⟩ := engine_next_cases h
  · rw [hf] at hr
    cases hr
    exact .inl rfl
  · cases hr
  · exact .inr (stepAdvance_shift (s := { s with out := out }) (r := { r with sinkFailed := f }) hr)

/-- A step that goes on has a configuration that is CfgWF. -/
theorem step_next_wf {s t : State} (h : step s = .next t) : s.cfg.WF := (step_next_cases h).1

/-- No step writes the configuration (spec/10_state.md R30). -/
theorem step_cfg {s t : State} (h : step s = .next t) : t.cfg = s.cfg := by
  obtain ⟨-, ⟨-, rfl⟩ | ⟨-, -, -, rfl⟩ | ⟨-, -, w, ws, -, -, rfl⟩ | ⟨-, -, w, ws, v, b, -, -, rfl⟩ | ⟨-, r, -, he⟩⟩ :=
    step_next_cases h
  · rfl
  · rfl
  · rfl
  · simp
  · exact (engine_frame he).1

/-- No step adds to what the host has still to present. -/
theorem step_program_subset {s t : State} (h : step s = .next t) : t.program ⊆ s.program := by
  obtain ⟨-, ⟨-, rfl⟩ | ⟨-, -, -, rfl⟩ | ⟨-, -, w, ws, -, -, rfl⟩ | ⟨-, -, w, ws, v, b, -, -, rfl⟩ | ⟨-, r, -, he⟩⟩ :=
    step_next_cases h
  · simp
  · simp
  · simpa using List.tail_subset s.program
  · simpa using List.tail_subset s.program
  · simp [(engine_frame he).2]

/-- Where `shift` holds a value after a step, that value is the operand of a SYNTH the host had to present, or comes from
the `shift` before, kept or advanced once by STEP.SHIFT. -/
theorem step_shift_cases {s t : State} {r' : InFlight} (h : step s = .next t) (hr : r' ∈ t.flight) :
    (∃ w ∈ s.program, ∃ v b, decode w = .command (.synth v b) ∧ r'.shift = (v : Rat)) ∨
    (∃ r ∈ s.flight, r'.shift = r.shift ∨ r'.shift = shiftNext s.cfg r.shift) := by
  obtain ⟨-, ⟨-, rfl⟩ | ⟨-, hi, -, rfl⟩ | ⟨-, -, w, ws, -, -, rfl⟩ | ⟨-, -, w, ws, v, b, hp, hd, rfl⟩ | ⟨-, r, hf, he⟩⟩ :=
    step_next_cases h
  · cases hr
  · simp [hi] at hr
  · cases hr
  · left
    refine ⟨w, by simp [hp], v, b, hd, ?_⟩
    rcases beginSymbol_cases (commandTaken (inputTaken s)) v b with ⟨-, ht⟩ | ⟨-, ht⟩ <;> rw [ht] at hr <;> cases hr
    rfl
  · exact .inr ⟨r, hf, engine_shift (s := inputTaken s) he hf hr⟩

/-- Who writes the phase in a step: a hardware reset, a RESET accepted by an idle block, or STEP.PHASE. -/
theorem step_phase_cases {s t : State} (h : step s = .next t) :
    t.phase = s.phase ∨
    (t.phase = 0 ∧ ((inputNow s).reset = true ∨
      (s.flight = none ∧ ∃ w ws, s.program = w :: ws ∧ decode w = .command .reset))) ∨
    ((inputNow s).reset = false ∧ ∃ r, s.flight = some r ∧ r.idx < nsamp s.cfg ∧ (inputNow s).sink ≠ .wait ∧
      t.phase = phaseNext s.cfg r.inv r.shift s.phase) := by
  obtain ⟨-, ⟨hr, rfl⟩ | ⟨-, -, -, rfl⟩ | ⟨-, hi, w, ws, hp, hd, rfl⟩ | ⟨-, -, w, ws, v, b, -, -, rfl⟩ |
    ⟨hr, r, hf, he⟩⟩ := step_next_cases h
  · exact .inr (.inl ⟨rfl, .inl hr⟩)
  · exact .inl rfl
  · exact .inr (.inl ⟨rfl, .inr ⟨hi, w, ws, hp, hd⟩⟩)
  · exact .inl (by simp)
  · rcases engine_phase he with hk | ⟨ha, hn⟩
    · exact .inl hk
    · exact .inr (.inr ⟨hr, r, hf, (engine_next_cases he).1, ha, hn⟩)

/-- What every step keeps, every run keeps. -/
theorem runFor_preserves {P : State → Prop} (hstep : ∀ s t, P s → step s = .next t → P t) {k : Nat} {s t : State}
    (hs : P s) (h : runFor k s = .next t) : P t := by
  induction k generalizing s with
  | zero => cases h; exact hs
  | succ k ih =>
    obtain ⟨u, hu, hr⟩ := runFor_succ_eq_next h
    exact ih (hstep s u hs hu) hr

/-! The range of `shift`. -/

theorem stepsz_pos {c : Config} (hw : c.WF) : 0 < stepsz c := by
  obtain ⟨hbw, -, hfs⟩ := hw
  exact div_pos hbw (by exact_mod_cast hfs)

/-- With 0 ≤ STEPSZ ≤ N, STEP.SHIFT keeps [0, N): its one subtraction suffices (spec/10_state.md R25). -/
theorem shiftNext_mem_range {c : Config} {x : Rat} (hz : 0 ≤ stepsz c) (hN : stepsz c ≤ alphabetSize c) (h0 : 0 ≤ x)
    (h1 : x < alphabetSize c) : 0 ≤ shiftNext c x ∧ shiftNext c x < alphabetSize c := by
  unfold shiftNext shiftWrap
  split
  · exact ⟨by linarith, by linarith⟩
  · exact ⟨by linarith, by linarith⟩

/-- A symbol value of the alphabet enters `shift` in its range. -/
theorem InAlphabet.shift_mem_range {c : Config} {v : Int} (h : InAlphabet c v) :
    0 ≤ (v : Rat) ∧ (v : Rat) < alphabetSize c := by
  obtain ⟨h0, h1⟩ := h
  exact ⟨by exact_mod_cast h0, by exact_mod_cast h1⟩

/-- Symbols to come stay in the alphabet: a step only takes words from the host's list. -/
theorem step_keeps_programInAlphabet {s t : State} (ha : s.ProgramInAlphabet) (h : step s = .next t) :
    t.ProgramInAlphabet := by
  intro w hw v b hd
  rw [step_cfg h]
  exact ha w (step_program_subset h hw) v b hd

theorem step_keeps_shiftInRange {s t : State} (hN : stepsz s.cfg ≤ alphabetSize s.cfg) (ha : s.ProgramInAlphabet)
    (hs : s.ShiftInRange) (h : step s = .next t) : t.ShiftInRange := by
  intro r' hr'
  rw [step_cfg h]
  rcases step_shift_cases h hr' with ⟨w, hw, v, b, hd, hv⟩ | ⟨r, hr, hkept | hnext⟩
  · rw [hv]
    exact (ha w hw v b hd).shift_mem_range
  · rw [hkept]
    exact hs r hr
  · obtain ⟨h0, h1⟩ := hs r hr
    rw [hnext]
    exact shiftNext_mem_range (stepsz_pos (step_next_wf h)).le hN h0 h1

/-- Settles O50: a step's `shift` is an operand in the alphabet, the one before, or the one before advanced once. -/
theorem shiftStaysInRange : Obligations.ShiftStaysInRange := by
  intro s t hN ha hs h
  have hN' : stepsz s.cfg ≤ alphabetSize s.cfg := by simpa [stepsz, alphabetSize] using hN
  exact ⟨step_keeps_programInAlphabet ha h, step_keeps_shiftInRange hN' ha hs h⟩

/-- Settles O56, by the cases of a step that goes on. -/
theorem phaseHasNoOtherWriter : Obligations.PhaseHasNoOtherWriter := fun _ _ h => step_phase_cases h

/-- Settles O15: of the writers of the phase, STEP.PHASE needs a symbol in flight. -/
theorem idlePhaseIsWrittenOnlyByReset : Obligations.IdlePhaseIsWrittenOnlyByReset := by
  intro s t h hi hne
  rcases step_phase_cases h with hk | ⟨h0, hr | ⟨-, hcmd⟩⟩ | ⟨-, r, hf, -⟩
  · exact absurd hk hne
  · exact ⟨h0, .inl hr⟩
  · exact ⟨h0, .inr hcmd⟩
  · simp [hi] at hf

/-- Settles O16: every step keeps the configuration, so every run does. -/
theorem configurationNeverChanges : Obligations.ConfigurationNeverChanges := fun _ s _ h =>
  runFor_preserves (P := fun u => u.cfg = s.cfg) (fun _ _ hu hs => (step_cfg hs).trans hu) rfl h

/-! Construction and reset. -/

theorem documentExample_nonNegFreq : Config.documentExample.NonNegFreq := by
  unfold Config.documentExample
  exact ⟨⟨by norm_num, by norm_num, by norm_num⟩, by norm_num⟩

/-- Settles O12. -/
theorem resetState : Obligations.ResetState :=
  ⟨fun c => ⟨fresh_phase c, busy_eq_false.mpr (fresh_flight c), fresh_flight c, fresh_out c, fresh_cfg c⟩,
    Config.documentExample, rfl, documentExample_nonNegFreq.1⟩

/-- A freshly constructed block meets every invariant: it is idle, has nothing to present, and its phase is 0. -/
theorem fresh_invariants {c : Config} (hw : c.WF) :
    (State.fresh c).Sound ∧ (State.fresh c).ProgramInAlphabet ∧ (State.fresh c).ShiftInRange ∧
      (State.fresh c).PhaseInRange := by
  refine ⟨⟨hw, ?_⟩, ?_, ?_, ?_⟩
  · simp
  · simp [State.ProgramInAlphabet]
  · simp [State.ShiftInRange]
  · norm_num [State.PhaseInRange]

/-- Settles O49: the state at reset is a freshly constructed block with the document's own configuration. -/
theorem invariantsHoldAtReset : Obligations.InvariantsHoldAtReset := by
  obtain ⟨hsound, hprogram, hshift, hphase⟩ := fresh_invariants documentExample_nonNegFreq.1
  exact ⟨hsound, hprogram, hshift, hphase, documentExample_nonNegFreq, fun _ hw => fresh_invariants hw⟩

/-! A symbol under way in quiet surroundings. -/

/-- `s` after `k` quiet instants of SYNTH `v`, `b`, the symbol still in flight, in the terms of `shiftAt` and `phaseAt`. -/
def midSymbol (s : State) (v : Int) (b : Bool) (k : Nat) : State :=
  { s with
    phase := phaseAt s.cfg v b s.phase k
    flight := some { shift := shiftAt s.cfg v k, inv := b, idx := k, sinkFailed := false }
    out := s.out ++ samplesUpTo s.cfg v b s.phase k
    inputs := s.inputs.drop k }

/-- The accepted SYNTH is the symbol under way with no step done. -/
theorem execSynth_eq_midSymbol {s : State} {v : Int} {b : Bool} (hw : s.cfg.WF) (hi : s.flight = none)
    (hn : 0 < nsamp s.cfg) : exec (.synth v b) s = .next (midSymbol s v b 0) := by
  refine (accept_idle _ hw hi).trans ?_
  rcases beginSymbol_cases s v b with ⟨-, h⟩ | ⟨h, -⟩
  · rw [h]
    simp [midSymbol, phaseAt, shiftAt, operandShift, samplesUpTo]
  · exact absurd h hn.ne'

/-- One STEP with the sink taking the pair takes the symbol from `k` to `k + 1`. -/
theorem stepAccepted_midSymbol {s : State} {v : Int} {b : Bool} {k : Nat} (hk : k + 1 < nsamp s.cfg) :
    stepAccepted (inputTaken (midSymbol s v b k))
      { shift := shiftAt s.cfg v k, inv := b, idx := k, sinkFailed := false } = midSymbol s v b (k + 1) := by
  unfold stepAccepted
  rcases stepAdvance_cases (emit (inputTaken (midSymbol s v b k)) (stepSample (inputTaken (midSymbol s v b k))))
    { shift := shiftAt s.cfg v k, inv := b, idx := k, sinkFailed := false } with ⟨-, h⟩ | ⟨h, -⟩
  · rw [h]
    simp [midSymbol, emit, inputTaken, stepSample, phaseAt, shiftAt, samplesUpTo, List.range_succ]
  · exact absurd h hk.ne

theorem quietFor_mono {s : State} {j k : Nat} (hjk : j ≤ k) (hq : s.QuietFor k) : s.QuietFor j :=
  fun i hi => hq i (List.take_subset_take_left s.inputs hjk hi)

/-- What is quiet for `k + 1` instants is quiet in the one after the first `k`. -/
theorem midSymbol_quietFor_one {s : State} {v : Int} {b : Bool} {k : Nat} (hq : s.QuietFor (k + 1)) :
    (midSymbol s v b k).QuietFor 1 := by
  intro i hi
  refine hq i ?_
  rw [List.take_add]
  exact List.mem_append_right _ hi

/-- A quiet instant takes the symbol from `k` to `k + 1`, short of its last step. -/
theorem step_midSymbol {s : State} {v : Int} {b : Bool} {k : Nat} (hw : s.cfg.WF) (hk : k + 1 < nsamp s.cfg)
    (hq : (midSymbol s v b k).QuietFor 1) : step (midSymbol s v b k) = .next (midSymbol s v b (k + 1)) := by
  rw [step_of_flight (s := midSymbol s v b k) hw rfl (sinkSays_of_quiet (k := 0) hq), ← stepAccepted_midSymbol hk]
  exact engine_eq_next_iff.mpr ⟨Nat.lt_of_succ_lt hk, .inl ⟨rfl, rfl⟩⟩

/-- While the surroundings stay quiet, `k` steps take a symbol from its start to `k`, short of its last step. -/
theorem runFor_midSymbol {s : State} {v : Int} {b : Bool} {k : Nat} (hw : s.cfg.WF) (hk : k < nsamp s.cfg)
    (hq : s.QuietFor k) : runFor k (midSymbol s v b 0) = .next (midSymbol s v b k) := by
  induction k with
  | zero => rfl
  | succ k ih =>
    have hprefix := ih (Nat.lt_of_succ_lt hk) (quietFor_mono (Nat.le_succ k) hq)
    have hstep := step_midSymbol (v := v) (b := b) hw hk (midSymbol_quietFor_one hq)
    rw [runFor_add k 1 hprefix, runFor_succ_of_next 0 hstep, runFor_zero]

/-- The phase `k` quiet steps into a SYNTH, short of its last step, is that of the iterated STEP.PHASE. -/
theorem exec_synth_runFor_phase {s : State} {v : Int} {b : Bool} {k : Nat} (hw : s.cfg.WF) (hi : s.flight = none)
    (hk : k < nsamp s.cfg) (hq : s.QuietFor k) :
    ∃ t u, exec (.synth v b) s = .next t ∧ runFor k t = .next u ∧ u.phase = phaseAt s.cfg v b s.phase k :=
  ⟨_, _, execSynth_eq_midSymbol hw hi (Nat.zero_lt_of_lt hk), runFor_midSymbol hw hk hq, rfl⟩

/-- Settles O52: the increments at shift 0, 1, 2, 3 are −1/4, −3/16, −1/8 and −1/16 turn. -/
theorem phaseLeavesTheRangeWithoutALowerWrap : Obligations.PhaseLeavesTheRangeWithoutALowerWrap := by
  obtain ⟨t, u, ht, hu, hphase⟩ := exec_synth_runFor_phase
    (s := State.fresh { bw := 16, sf := 4, fs := 16, sinkFail := .continueSymbol }) (v := 0) (b := false) (k := 4)
    (by decide) rfl (by decide +kernel) (by simp [State.QuietFor])
  refine ⟨t, u, ht, hu, hphase.trans ?_⟩
  norm_num [phaseAt, phaseNext, phaseWrap, phaseIncrement, freqInst, freqPre, freqBase, foff, shiftAt, shiftNext,
    shiftWrap, stepsz, alphabetSize, operandShift]

end Sys2Proof.Machine

namespace Sys2Proof.Machine

/-! What a step appends to OUT. -/

@[simp] theorem stepAdvance_out (s : State) (r : InFlight) : (stepAdvance s r).out = s.out := by
  rcases stepAdvance_cases s r with ⟨-, h⟩ | ⟨-, h⟩ <;> rw [h]

@[simp] theorem stepAccepted_out (s : State) (r : InFlight) : (stepAccepted s r).out = s.out ++ [stepSample s] := by
  rw [stepAccepted, stepAdvance_out, emit_out]

/-- Under either policy a pair the sink fails to take is not in OUT (spec/60_exceptions.md R185, R186). -/
@[simp] theorem stepFailed_out (s : State) (r : InFlight) : (stepFailed s r).out = s.out := by
  rcases stepFailed_cases s r with ⟨-, h⟩ | ⟨-, h⟩ <;> simp [h]

/-- A unit of the engine's progress leaves OUT as it is or appends the pair of the present phase. -/
theorem engine_out {s t : State} {r : InFlight} {a : SinkAnswer} (h : engine s r a = .next t) :
    t.out = s.out ∨ t.out = s.out ++ [stepSample s] := by
  obtain ⟨-, ⟨-, rfl⟩ | ⟨-, rfl⟩ | ⟨-, rfl⟩⟩ := engine_eq_next_iff.mp h
  · exact .inr (stepAccepted_out s r)
  · exact .inl rfl
  · exact .inl (stepFailed_out s r)

/-- Settles O43: of the cases of a step that goes on, only the engine's writes OUT, and it needs a symbol in flight. -/
theorem outGrowsByThePresentPhase : Obligations.OutGrowsByThePresentPhase := by
  intro s t h
  obtain ⟨-, ⟨-, rfl⟩ | ⟨-, -, -, rfl⟩ | ⟨-, -, w, ws, -, -, rfl⟩ | ⟨-, -, w, ws, v, b, -, -, rfl⟩ | ⟨-, r, hf, he⟩⟩ :=
    step_next_cases h
  · exact .inl rfl
  · exact .inl rfl
  · exact .inl rfl
  · exact .inl (beginSymbol_out _ v b)
  · rcases engine_out he with hkept | hgrown
    · exact .inl hkept
    · exact .inr ⟨busy_eq_true.mpr ⟨r, hf⟩, hgrown⟩

/-- Settles O44: the step is the engine's, and its answer to a sink that is not ready is the state it was given. -/
theorem sinkNotReadyHoldsTheEngine : Obligations.SinkNotReadyHoldsTheEngine := by
  intro s r hw hf hidx hwait
  rw [step_of_flight hw hf hwait]
  exact engine_eq_next_iff.mpr ⟨hidx, .inr (.inl ⟨rfl, rfl⟩)⟩

/-- A run whose first step faults stops there. -/
theorem runFor_succ_of_fault {s : State} {f : Fault} (k : Nat) (h : step s = .fault f) :
    runFor (k + 1) s = .fault f := by
  have h' : Sys2Proof.core.step s = .fault f := h
  simp only [runFor, Host.Core.run, h']
  rfl

/-- A run whose first step is refused stops there. -/
theorem runFor_succ_of_refused {s : State} {r : Refusal} (k : Nat) (h : step s = .refused r) :
    runFor (k + 1) s = .refused r := by
  have h' : Sys2Proof.core.step s = .refused r := h
  simp only [runFor, Host.Core.run, h']
  rfl

/-! The records of a state, OUT and `returns`, are only appended to: what stands in them already goes through every
operation, step and run untouched and unread (spec/20_memory.md R66, spec/43_synth.md R161). -/

/-- `s` with `o` emitted and `c` returned before all that its records hold. -/
def State.withHistory (o : List Sample) (c : List Completion) (s : State) : State :=
  { s with out := o ++ s.out, returns := c ++ s.returns }

/-- `s` with nothing emitted and nothing returned. -/
def State.withoutHistory (s : State) : State := { s with out := [], returns := [] }

/-- An outcome with `g` applied to the next state, if there is one. -/
def mapNext (g : State → State) : Host.Outcome State Fault Refusal → Host.Outcome State Fault Refusal
  | .next s => .next (g s)
  | .fault f => .fault f
  | .refused r => .refused r

/-- An action in whose states `o` was emitted and `c` returned before. -/
def Action.withHistory (o : List Sample) (c : List Completion) : Action → Action
  | .settled x => .settled (mapNext (State.withHistory o c) x)
  | .run i s => .run i (s.withHistory o c)

section
variable (o : List Sample) (c : List Completion) (s : State)

@[simp] theorem withHistory_cfg : (s.withHistory o c).cfg = s.cfg := rfl

@[simp] theorem withHistory_busy : (s.withHistory o c).busy = s.busy := rfl

@[simp] theorem withHistory_program : (s.withHistory o c).program = s.program := rfl

/-- A state equal to `s` but for its records is `s` stripped of its own, with the other's put before. -/
theorem withHistory_withoutHistory {s s' : State} (hcfg : s'.cfg = s.cfg) (hphase : s'.phase = s.phase)
    (hflight : s'.flight = s.flight) (hprogram : s'.program = s.program) (hinputs : s'.inputs = s.inputs) :
    s.withoutHistory.withHistory s'.out s'.returns = s' := by
  cases s'
  simp_all [State.withHistory, State.withoutHistory]

theorem emit_withHistory (x : Sample) : emit (s.withHistory o c) x = (emit s x).withHistory o c := by
  simp [emit, State.withHistory]

theorem endSymbol_withHistory (f : Bool) : endSymbol (s.withHistory o c) f = (endSymbol s f).withHistory o c := by
  simp [endSymbol, State.withHistory]

theorem beginSymbol_withHistory (v : Int) (b : Bool) :
    beginSymbol (s.withHistory o c) v b = (beginSymbol s v b).withHistory o c := by
  unfold beginSymbol
  rw [withHistory_cfg]
  split
  · rfl
  · exact endSymbol_withHistory o c s false

theorem stepIdx_withHistory (r : InFlight) : stepIdx (s.withHistory o c) r = (stepIdx s r).withHistory o c := by
  unfold stepIdx
  rw [withHistory_cfg]
  split
  · rfl
  · exact endSymbol_withHistory o c s r.sinkFailed

theorem stepAdvance_withHistory (r : InFlight) :
    stepAdvance (s.withHistory o c) r = (stepAdvance s r).withHistory o c :=
  stepIdx_withHistory o c { s with phase := phaseNext s.cfg r.inv r.shift s.phase }
    { r with shift := shiftNext s.cfg r.shift }

theorem stepAccepted_withHistory (r : InFlight) :
    stepAccepted (s.withHistory o c) r = (stepAccepted s r).withHistory o c := by
  rw [stepAccepted, emit_withHistory, stepAdvance_withHistory]
  rfl

theorem stepFailed_withHistory (r : InFlight) :
    stepFailed (s.withHistory o c) r = (stepFailed s r).withHistory o c := by
  unfold stepFailed
  rw [withHistory_cfg]
  split
  · exact stepAdvance_withHistory o c s { r with sinkFailed := true }
  · exact endSymbol_withHistory o c s true

theorem engine_withHistory (r : InFlight) (a : SinkAnswer) :
    engine (s.withHistory o c) r a = mapNext (State.withHistory o c) (engine s r a) := by
  unfold engine
  rw [withHistory_cfg]
  split
  · cases a
    · simp only [stepAccepted_withHistory, mapNext]
    · rfl
    · simp only [stepFailed_withHistory, mapNext]
  · rfl

theorem accept_withHistory (t : State) :
    accept (s.withHistory o c) (t.withHistory o c) = mapNext (State.withHistory o c) (accept s t) := by
  unfold accept
  rw [withHistory_cfg, withHistory_busy]
  split
  · rfl
  · split <;> rfl

theorem exec_withHistory (i : Instr) :
    exec i (s.withHistory o c) = mapNext (State.withHistory o c) (exec i s) := by
  cases i with
  | reset => exact accept_withHistory o c s (resetRegisters s)
  | synth v b =>
    have h := accept_withHistory o c s (beginSymbol s v b)
    rwa [← beginSymbol_withHistory] at h

theorem idleAction_withHistory : idleAction (s.withHistory o c) = (idleAction s).withHistory o c := by
  cases hp : s.program with
  | nil =>
    rw [idleAction_nil hp, idleAction_nil (s := s.withHistory o c) hp]
    rfl
  | cons w ws =>
    rw [idleAction_cons hp, idleAction_cons (s := s.withHistory o c) hp]
    cases hd : decode w with
    | command i =>
      rw [commandAction_command hd, commandAction_command hd]
      rfl
    | invalid why =>
      rw [commandAction_invalid hd, commandAction_invalid hd]
      rfl

theorem busyAction_withHistory (r : InFlight) (i : Input) :
    busyAction (s.withHistory o c) r i = (busyAction s r i).withHistory o c := by
  unfold busyAction
  rw [withHistory_program]
  split
  · rfl
  · rw [engine_withHistory]
    rfl

theorem control_withHistory : control (s.withHistory o c) = (control s).withHistory o c := by
  by_cases hw : s.cfg.WF
  swap
  · rw [control_of_not_wf hw, control_of_not_wf (s := s.withHistory o c) hw]
    rfl
  cases hr : (inputNow s).reset with
  | true =>
    rw [control_of_reset hw hr, control_of_reset (s := s.withHistory o c) hw hr]
    rfl
  | false =>
    cases hf : s.flight with
    | none =>
      rw [control_of_idle hw hr hf, control_of_idle (s := s.withHistory o c) hw hr hf]
      exact idleAction_withHistory o c (inputTaken s)
    | some r =>
      rw [control_of_busy hw hr hf, control_of_busy (s := s.withHistory o c) hw hr hf]
      exact busyAction_withHistory o c (inputTaken s) r (inputNow s)

/-- A step carries the records along: what they hold already changes neither the outcome nor what is appended. -/
theorem step_withHistory : step (s.withHistory o c) = mapNext (State.withHistory o c) (step s) := by
  unfold step
  rw [control_withHistory]
  cases control s with
  | settled x => rfl
  | run i t => exact exec_withHistory o c t i

/-- A run carries the records along, as each of its steps does. -/
theorem runFor_withHistory (k : Nat) :
    runFor k (s.withHistory o c) = mapNext (State.withHistory o c) (runFor k s) := by
  induction k generalizing s with
  | zero => rfl
  | succ k ih =>
    have hstep := step_withHistory o c s
    cases hs : step s with
    | next t =>
      rw [hs] at hstep
      rw [runFor_succ_of_next k hs, runFor_succ_of_next k hstep, ih t]
    | fault f =>
      rw [hs] at hstep
      rw [runFor_succ_of_fault k hs, runFor_succ_of_fault k hstep]
      rfl
    | refused r =>
      rw [hs] at hstep
      rw [runFor_succ_of_refused k hs, runFor_succ_of_refused k hstep]
      rfl

end

/-- Settles O25: both runs are the run of one state with empty records, each with its own history put before. -/
theorem historyHasNoInfluence : Obligations.HistoryHasNoInfluence := by
  intro k s s' hcfg hphase hflight hprogram hinputs
  have hs := runFor_withHistory s.out s.returns s.withoutHistory k
  have hs' := runFor_withHistory s'.out s'.returns s.withoutHistory k
  rw [withHistory_withoutHistory rfl rfl rfl rfl rfl] at hs
  rw [withHistory_withoutHistory hcfg hphase hflight hprogram hinputs] at hs'
  rw [hs, hs']
  cases runFor k s.withoutHistory with
  | next u =>
    refine ⟨nofun, nofun, ?_⟩
    rintro t ⟨⟩
    exact ⟨_, u.out, rfl, rfl, rfl, rfl, rfl, rfl⟩
  | fault f => exact ⟨fun _ h => h, fun _ h => h, nofun⟩
  | refused r => exact ⟨fun _ h => h, fun _ h => h, nofun⟩

end Sys2Proof.Machine

namespace Sys2Proof

/-! The fields of a command word as parts of its number, and the commands the word can carry. -/

theorem valueField_eq_mod (w : Word32) : valueField w = ((w.toNat % 2 ^ 24 : Nat) : Int) := by
  simp [valueField, BitVec.extractLsb'_toNat]

theorem invField_eq_true_iff (w : Word32) : invField w = true ↔ w.toNat / 2 ^ 24 % 2 = 1 := by
  simp [invField, BitVec.getLsbD, Nat.testBit_eq_decide_div_mod_eq]

theorem synthRowField_eq_iff (w : Word32) : synthRowField w = 0b0010000#7 ↔ w.toNat / 2 ^ 25 = 16 := by
  rw [← BitVec.toNat_inj, synthRowField_toNat]
  rfl

/-- A word lies in the SYNTH row exactly when `op` is 0x2 and the must-be-zero field is 0 (spec/30_encoding.md R71). -/
theorem synthRowField_eq_iff_fields (w : Word32) :
    synthRowField w = 0b0010000#7 ↔ opField w = 0x2#4 ∧ w.extractLsb' 25 3 = 0#3 := by
  have hw := w.isLt
  rw [synthRowField_eq_iff, ← BitVec.toNat_inj, ← BitVec.toNat_inj]
  simp only [opField, BitVec.extractLsb'_toNat, Nat.shiftRight_eq_div_pow, BitVec.toNat_ofNat]
  omega

/-- The number of a word of the SYNTH row, put together from its operands. -/
theorem toNat_of_synthRow {w : Word32} (h : synthRowField w = 0b0010000#7) :
    w.toNat = 0x20000000 + (if invField w then 0x01000000 else 0) + w.toNat % 2 ^ 24 := by
  rw [synthRowField_eq_iff] at h
  simp only [invField_eq_true_iff]
  split <;> omega

theorem wellFormed_synth_iff (v : Int) (b : Bool) :
    (Instr.synth v b).wellFormed = true ↔ 0 ≤ v ∧ v < 2 ^ 24 := by
  simp [Instr.wellFormed, Config.valueBits]

theorem valueField_mem_range (w : Word32) : 0 ≤ valueField w ∧ valueField w < 2 ^ 24 := by
  rw [valueField_eq_mod]
  omega

/-! What `decode` and `encode` answer, case by case (spec/30_encoding.md R76). -/

theorem decode_of_synthRow {w : Word32} (h : synthRowField w = 0b0010000#7) :
    decode w = .command (.synth (valueField w) (invField w)) := by
  have hne : w ≠ 0x10000000#32 := by
    rintro rfl
    exact absurd h (by decide)
  rw [decode, if_neg hne, if_pos h]

theorem decode_of_neither_row {w : Word32} (hr : w ≠ 0x10000000#32) (hs : synthRowField w ≠ 0b0010000#7) :
    decode w = .invalid (reservedClass w) := by
  rw [decode, if_neg hr, if_neg hs]

/-- `decode` reads RESET, or a SYNTH with the operands of a word of its row, or a word that is neither. -/
theorem decode_cases (w : Word32) :
    (w = 0x10000000#32 ∧ decode w = .command .reset) ∨
    (synthRowField w = 0b0010000#7 ∧ decode w = .command (.synth (valueField w) (invField w))) ∨
    (w ≠ 0x10000000#32 ∧ synthRowField w ≠ 0b0010000#7 ∧ decode w = .invalid (reservedClass w)) := by
  by_cases hr : w = 0x10000000#32
  · exact .inl ⟨hr, if_pos hr⟩
  · by_cases hs : synthRowField w = 0b0010000#7
    · exact .inr (.inl ⟨hs, decode_of_synthRow hs⟩)
    · exact .inr (.inr ⟨hr, hs, decode_of_neither_row hr hs⟩)

theorem decode_eq_reset_iff {w : Word32} : decode w = .command .reset ↔ w = 0x10000000#32 := by
  refine ⟨fun h => ?_, fun h => if_pos h⟩
  rcases decode_cases w with ⟨hw, -⟩ | ⟨-, hd⟩ | ⟨-, -, hd⟩
  · exact hw
  · simp [hd] at h
  · simp [hd] at h

theorem decode_eq_synth_iff {w : Word32} {v : Int} {b : Bool} :
    decode w = .command (.synth v b) ↔ synthRowField w = 0b0010000#7 ∧ valueField w = v ∧ invField w = b := by
  rcases decode_cases w with ⟨rfl, hd⟩ | ⟨hs, hd⟩ | ⟨-, hs, hd⟩
  · simp [hd, show synthRowField 0x10000000#32 ≠ 0b0010000#7 by decide]
  · simp [hd, hs]
  · simp [hd, hs]

theorem encode_synth_eq_none {v : Int} (b : Bool) (h : ¬ (0 ≤ v ∧ v < 2 ^ 24)) : encode (.synth v b) = none :=
  if_neg h

/-- The word of a SYNTH as the number of spec/30_encoding.md R76. -/
theorem encode_synth_number {v : Int} (b : Bool) (h0 : 0 ≤ v) (h1 : v < 2 ^ 24) :
    ∃ w : Word32, encode (.synth v b) = some w ∧
      (w.toNat : Int) = 0x20000000 + (if b then 0x01000000 else 0) + v := by
  obtain ⟨w, hw, hn, -⟩ := encode_synth_toNat v b ((wellFormed_synth_iff v b).mpr ⟨h0, h1⟩)
  refine ⟨w, hw, ?_⟩
  cases b <;> simp at hn ⊢ <;> omega

theorem wellFormed_iff_encode (i : Instr) : i.wellFormed = true ↔ ∃ w, encode i = some w := by
  cases i with
  | reset => exact ⟨fun _ => ⟨_, rfl⟩, fun _ => rfl⟩
  | synth v b =>
    constructor
    · intro h
      obtain ⟨w, hw, -⟩ := encode_synth_toNat v b h
      exact ⟨w, hw⟩
    · rintro ⟨w, hw⟩
      rw [wellFormed_synth_iff]
      by_contra h
      simp [encode_synth_eq_none b h] at hw

/-- The operands of a word are read back from its number. -/
theorem fields_of_toNat {w : Word32} {b : Bool} {n : Nat}
    (h : w.toNat = 0x20000000 + (if b then 0x01000000 else 0) + n) (hn : n < 2 ^ 24) :
    valueField w = n ∧ invField w = b := by
  rw [valueField_eq_mod, Bool.eq_iff_iff, invField_eq_true_iff, h]
  cases b <;> simp <;> omega

/-- `decode` undoes `encode`. -/
theorem decode_encode {i : Instr} {w : Word32} (h : encode i = some w) : decode w = .command i := by
  cases i with
  | reset => cases h; rfl
  | synth v b =>
    have hwf := (wellFormed_iff_encode _).mpr ⟨w, h⟩
    obtain ⟨w', hw', hn, hlt⟩ := encode_synth_toNat v b hwf
    obtain rfl : w' = w := Option.some.inj (hw'.symm.trans h)
    obtain ⟨hv, hb⟩ := fields_of_toNat hn hlt
    have h0 := ((wellFormed_synth_iff v b).mp hwf).1
    exact decode_eq_synth_iff.mpr
      ⟨(rowSynth_spells_iff w').mp (rowSynth_spells_of_toNat w' hn hlt), hv.trans (Int.toNat_of_nonneg h0), hb⟩

/-- `encode` undoes `decode`: the word of the operands has the number of the word they were read from. -/
theorem encode_decode {w : Word32} {i : Instr} (h : decode w = .command i) : encode i = some w := by
  cases i with
  | reset => rw [decode_eq_reset_iff.mp h]; rfl
  | synth v b =>
    obtain ⟨hs, rfl, rfl⟩ := decode_eq_synth_iff.mp h
    have hwf := (wellFormed_synth_iff _ (invField w)).mpr (valueField_mem_range w)
    obtain ⟨w', hw', hn, -⟩ := encode_synth_toNat _ _ hwf
    rw [valueField_eq_mod, Int.toNat_natCast] at hn
    rw [hw', BitVec.eq_of_toNat_eq (hn.trans (toNat_of_synthRow hs).symm)]

/-- Settles O2. -/
theorem decodeAndEncodeAgree : Obligations.DecodeAndEncodeAgree := by
  refine ⟨fun w h => decode_eq_reset_iff.mpr h, fun w _ hs => ?_, fun w hr hs => ⟨_, decode_of_neither_row hr hs⟩,
    rfl, fun v b => encode_synth_number b, fun v b => encode_synth_eq_none b, fun i w => decode_encode,
    fun w i => encode_decode, wellFormed_iff_encode⟩
  rw [← valueField_eq_mod]
  exact decode_of_synthRow hs

/-! The rows of the opcode map (spec/30_encoding.md R73). -/

theorem rowReset_spells_iff (w : Word32) : rowReset.spells w = true ↔ decode w = .command .reset := by
  have hmask : w &&& 0xFFFFFFFF#32 = w := BitVec.and_allOnes
  rw [decode_eq_reset_iff, OpcodeRow.spells, rowReset, hmask, beq_iff_eq]

theorem rowSynth_spells_iff_decode (w : Word32) :
    rowSynth.spells w = true ↔ ∃ v b, decode w = .command (.synth v b) := by
  simp [rowSynth_spells_iff, decode_eq_synth_iff]

/-- A word spells a command in that command's own row. -/
theorem rowOf_spells {w : Word32} {i : Instr} (h : decode w = .command i) : (rowOf i).spells w = true := by
  cases i with
  | reset => exact (rowReset_spells_iff w).mpr h
  | synth v b => exact (rowSynth_spells_iff_decode w).mpr ⟨v, b, h⟩

theorem exists_command_iff_row (w : Word32) :
    (∃ i, decode w = .command i) ↔ ∃ r ∈ opcodeMap, r.spells w = true := by
  constructor
  · rintro ⟨i, hi⟩
    exact ⟨rowOf i, by cases i <;> simp [rowOf, opcodeMap], rowOf_spells hi⟩
  · rintro ⟨r, hr, hs⟩
    obtain rfl | rfl : r = rowReset ∨ r = rowSynth := by simpa [opcodeMap] using hr
    · exact ⟨_, (rowReset_spells_iff w).mp hs⟩
    · obtain ⟨v, b, hd⟩ := (rowSynth_spells_iff_decode w).mp hs
      exact ⟨_, hd⟩

/-- Settles O3: the rows are disjoint because `decode` gives one answer. -/
theorem opcodeMapDecides : Obligations.OpcodeMapDecides := by
  have hreset (w : Word32) : w &&& 0xFFFFFFFF#32 = 0x10000000#32 ↔ decode w = .command .reset :=
    beq_iff_eq.symm.trans (rowReset_spells_iff w)
  have hsynth (w : Word32) : w &&& 0xFE000000#32 = 0x20000000#32 ↔ ∃ v b, decode w = .command (.synth v b) :=
    beq_iff_eq.symm.trans (rowSynth_spells_iff_decode w)
  refine ⟨hreset, hsynth, ?_, exists_command_iff_row, fun w i => rowOf_spells⟩
  rintro w ⟨hr, hs⟩
  obtain ⟨v, b, hd⟩ := (hsynth w).mp hs
  simp [(hreset w).mp hr] at hd

/-- Settles O5. -/
theorem operandAssembly : Obligations.OperandAssembly := by
  intro w hw
  have hs : synthRowField w = 0b0010000#7 := (rowSynth_spells_iff w).mp (beq_iff_eq.mpr hw)
  obtain ⟨h0, h1⟩ := valueField_mem_range w
  exact ⟨_, _, decode_of_synthRow hs, rfl, h0, Int.le_of_lt_add_one h1, Iff.rfl⟩

/-- Settles O6. -/
theorem pseudoCommandsExpand : Obligations.PseudoCommandsExpand := by
  intro v h0 h1
  obtain ⟨w, hw, hn⟩ := encode_synth_number false h0 h1
  obtain ⟨w', hw', hn'⟩ := encode_synth_number true h0 h1
  exact ⟨rfl, rfl, ⟨w, hw, by simpa using hn⟩, ⟨w', hw', by simpa using hn'⟩⟩

end Sys2Proof

namespace Sys2Proof.Machine

/-! What a step makes of the word the host presents, and what a line of text reads as. -/

/-- An idle block takes up the word at the head of the host's program. -/
theorem control_of_idle_cons {s : State} {w : Word32} {ws : List Word32} (hw : s.cfg.WF)
    (hr : (inputNow s).reset = false) (hi : s.flight = none) (hp : s.program = w :: ws) :
    control s = commandAction w (commandTaken (inputTaken s)) := by
  rw [control_of_idle hw hr hi, idleAction_cons (s := inputTaken s) hp]

theorem step_of_idle_command {s : State} {w : Word32} {ws : List Word32} {i : Instr} (hw : s.cfg.WF)
    (hr : (inputNow s).reset = false) (hi : s.flight = none) (hp : s.program = w :: ws) (hd : decode w = .command i) :
    step s = exec i (commandTaken (inputTaken s)) := by
  rw [step, control_of_idle_cons hw hr hi hp, commandAction_command hd]

theorem step_of_idle_invalid {s : State} {w : Word32} {ws : List Word32} {why : Reserved} (hw : s.cfg.WF)
    (hr : (inputNow s).reset = false) (hi : s.flight = none) (hp : s.program = w :: ws) (hd : decode w = .invalid why) :
    step s = .refused .reservedCommand := by
  rw [step, control_of_idle_cons hw hr hi hp, commandAction_invalid hd]

/-- Settles O4: no class holds the word of RESET, and none a word of the SYNTH row, whose `op` is 0x2 and whose
must-be-zero field is 0. -/
theorem reservedWordsAreRefused : Obligations.ReservedWordsAreRefused := by
  intro w hclass
  have hreset : w ≠ 0x10000000#32 := by
    rintro rfl
    exact absurd hclass (by decide)
  have hsynth : synthRowField w ≠ 0b0010000#7 := by
    intro hs
    obtain ⟨hop, hzero⟩ := (synthRowField_eq_iff_fields w).mp hs
    rcases hclass with ⟨-, hne⟩ | ⟨hop', -⟩ | ⟨-, hne⟩
    · exact hne hop
    · exact absurd (hop.symm.trans hop') (by decide)
    · exact hne hzero
  have hd := decode_of_neither_row hreset hsynth
  exact ⟨⟨_, hd⟩, fun s ws hw hr hi hp => step_of_idle_invalid hw hr hi hp hd⟩

/-- Every command is a transition offered for acceptance. -/
theorem exec_eq_accept (i : Instr) (s : State) : ∃ t, exec i s = accept s t := by
  cases i with
  | reset => exact ⟨_, rfl⟩
  | synth v b => exact ⟨_, rfl⟩

theorem exec_of_not_wf {s : State} (i : Instr) (h : ¬ s.cfg.WF) : exec i s = .refused .invalidConfig := by
  obtain ⟨t, ht⟩ := exec_eq_accept i s
  rw [ht, accept, if_pos h]

theorem exec_of_busy {s : State} {r : InFlight} (i : Instr) (hw : s.cfg.WF) (hf : s.flight = some r) :
    exec i s = .refused .commandWhileBusy := by
  obtain ⟨t, ht⟩ := exec_eq_accept i s
  rw [ht, accept, if_neg (not_not.mpr hw), if_pos (busy_eq_true.mpr ⟨r, hf⟩)]

/-- The step in which the host presents a command's word is the command, accepted or refused, at the state before. -/
theorem step_presentNext {w : Word32} {i : Instr} (s : State) (hd : decode w = .command i) :
    step (presentNext s w) = exec i s := by
  by_cases hw : s.cfg.WF
  · cases hf : s.flight with
    | none => rw [step_of_idle_command (s := presentNext s w) hw rfl hf rfl hd]; rfl
    | some r =>
      rw [step, control_of_busy (s := presentNext s w) hw rfl hf, busyAction_presented rfl (by simp),
        exec_of_busy i hw hf]
  · rw [step, control_of_not_wf (s := presentNext s w) hw, exec_of_not_wf i hw]

theorem decodeTableWord_eq_some_iff {nbits w : Nat} {i : Instr} :
    decodeTableWord nbits w = some i ↔ decode (tableWord nbits w) = .command i := by
  cases hd : decode (tableWord nbits w) <;> simp [decodeTableWord, hd, Decoded.instr?]

/-- Settles O8. -/
theorem stepRunsTheDecodedCommand : Obligations.StepRunsTheDecodedCommand := by
  refine ⟨fun s nbits w i h => step_presentNext s (decodeTableWord_eq_some_iff.mp h), ?_⟩
  intro s w ws i hw hr hi hp hd
  have htaken : commandTaken (inputTaken s) = { s with program := ws, inputs := s.inputs.tail } := by
    simp [commandTaken, inputTaken, hp]
  rw [step_of_idle_command hw hr hi hp hd, htaken]

/-- A comment begins only where a semicolon stands. -/
theorem stripComment_append {line : List Char} (rest : List Char) (h : ';' ∉ line) :
    stripComment (line ++ rest) = line ++ stripComment rest :=
  List.takeWhile_append_of_pos fun _ hc => bne_iff_ne.mpr (ne_of_mem_of_not_mem hc h)

/-- A line is read only as far as its comment. -/
theorem parseLine_congr {l l' : List Char} (h : stripComment l = stripComment l') : parseLine l = parseLine l' := by
  unfold parseLine
  rw [h]

/-- Settles O7. -/
theorem commentsDoNotCount : Obligations.CommentsDoNotCount := by
  intro line comment h
  apply parseLine_congr
  calc stripComment (line ++ ';' :: comment)
      _ = line ++ stripComment (';' :: comment) := stripComment_append _ h
      _ = line ++ stripComment [] := rfl
      _ = stripComment line := by rw [← stripComment_append [] h, List.append_nil]

end Sys2Proof.Machine

namespace Sys2Proof.Machine

/-! The comparisons of a STEP, the count of samples and the increment of the phase, as the spec writes them. -/

@[simp] theorem alphabetSize_cast (c : Config) : (alphabetSize c : Rat) = 2 ^ c.sf := by simp [alphabetSize]

theorem phaseWrap_of_le {θ : Rat} (h : θ ≤ 1 / 2) : phaseWrap θ = θ := if_neg (not_lt.mpr h)

theorem phaseWrap_of_lt {θ : Rat} (h : 1 / 2 < θ) : phaseWrap θ = θ - 1 := if_pos h

theorem shiftWrap_of_lt {c : Config} {x : Rat} (h : x < 2 ^ c.sf) : shiftWrap c x = x := by
  rw [shiftWrap, alphabetSize_cast, if_neg (not_le.mpr h)]

theorem shiftWrap_of_le {c : Config} {x : Rat} (h : 2 ^ c.sf ≤ x) : shiftWrap c x = x - 2 ^ c.sf := by
  rw [shiftWrap, alphabetSize_cast, if_pos h]

/-- Only a phase above half a turn is changed by the wrap. -/
theorem phaseWrap_eq_self_iff {θ : Rat} : phaseWrap θ = θ ↔ θ ≤ 1 / 2 := by
  refine ⟨fun h => ?_, phaseWrap_of_le⟩
  by_contra hlt
  rw [phaseWrap_of_lt (not_le.mp hlt)] at h
  linarith

/-- Only a shift of N or more is changed by the wrap. -/
theorem shiftWrap_eq_self_iff {c : Config} {x : Rat} : shiftWrap c x = x ↔ x < 2 ^ c.sf := by
  refine ⟨fun h => ?_, shiftWrap_of_lt⟩
  by_contra hle
  rw [shiftWrap_of_le (not_lt.mp hle)] at h
  have hpos : (0 : Rat) < 2 ^ c.sf := by positivity
  linarith

/-- Settles O29, by the two cases of either wrap. -/
theorem comparisonsAtEquality : Obligations.ComparisonsAtEquality :=
  ⟨fun _ => phaseWrap_eq_self_iff, fun _ => phaseWrap_of_lt,
    fun _ => (shiftWrap_of_le le_rfl).trans (sub_self _), fun _ _ => shiftWrap_eq_self_iff,
    fun _ _ => shiftWrap_of_le⟩

/-- NSAMP as the natural floor of Mathlib (spec/40_numerics.md R94). -/
theorem nsamp_eq_floor (c : Config) : nsamp c = ⌊(c.fs : Rat) * 2 ^ c.sf / c.bw⌋₊ := by
  rw [nsamp, alphabetSize_cast]
  rfl

/-- Settles O40: the quotient is non-negative, and below 1 exactly when BW > FS × N. -/
theorem sampleCountIsTheFloor : Obligations.SampleCountIsTheFloor := by
  rintro c ⟨hbw, -, -⟩
  have hquotient : (0 : Rat) ≤ c.fs * 2 ^ c.sf / c.bw := by positivity
  refine ⟨?_, ?_, fun q hq => ?_⟩
  · rw [nsamp_eq_floor, Int.natCast_floor_eq_floor hquotient]
  · rw [nsamp_eq_floor, Nat.floor_eq_zero, div_lt_one hbw]
  · rw [nsamp_eq_floor, hq, mul_div_cancel_right₀ _ hbw.ne', Nat.floor_natCast]

/-- R135's increment as R106 of spec/40_numerics.md writes it, with s = BW / FS and the fraction s / N per chip. -/
theorem phaseIncrement_eq {c : Config} (hw : c.WF) (inv : Bool) (x : Rat) :
    phaseIncrement c inv x =
      if inv then c.bw / c.fs / 2 + 1 / 4 - c.bw / c.fs / 2 ^ c.sf * x
      else c.bw / c.fs / 2 ^ c.sf * x + 1 / 4 - c.bw / c.fs / 2 := by
  obtain ⟨-, -, hfs⟩ := hw
  have hne : (c.fs : Rat) ≠ 0 := by exact_mod_cast (Nat.zero_lt_of_lt hfs).ne'
  simp only [phaseIncrement, freqInst, freqPre, freqBase, foff, alphabetSize_cast]
  split <;> field_simp <;> ring

@[simp] theorem stepAccepted_phase (s : State) (r : InFlight) :
    (stepAccepted s r).phase = phaseNext s.cfg r.inv r.shift s.phase :=
  stepAdvance_phase _ r

/-- Short of the last index, a STEP leaves its symbol in flight. -/
theorem stepAccepted_flight {s : State} {r : InFlight} (h : r.idx + 1 < nsamp s.cfg) :
    (stepAccepted s r).flight = some { r with shift := shiftNext s.cfg r.shift, idx := r.idx + 1 } := by
  rw [stepAccepted]
  rcases stepAdvance_cases (emit s (stepSample s)) r with ⟨-, ht⟩ | ⟨hlast, -⟩
  · rw [ht, emit_cfg]
  · exact absurd hlast h.ne

/-- A sink that takes the pair lets the block with a symbol in flight perform one STEP. -/
theorem step_of_accept {s : State} {r : InFlight} (hw : s.cfg.WF) (hf : s.flight = some r)
    (hidx : r.idx < nsamp s.cfg) (ha : s.SinkSays .accept) : step s = .next (stepAccepted (inputTaken s) r) := by
  rw [step_of_flight hw hf ha]
  exact engine_eq_next_iff.mpr ⟨hidx, .inl ⟨rfl, rfl⟩⟩

/-- Settles O26: the STEP's phase, pair and shift, with the increment rewritten as R106 gives it. -/
theorem stepInTurns : Obligations.StepInTurns := by
  intro s r hw hf hidx ha
  refine ⟨_, step_of_accept hw hf hidx ha, ?_, ⟨_, stepAccepted_out _ r, rfl⟩,
    fun hmore => ⟨_, stepAccepted_flight hmore, ?_⟩⟩
  · rw [stepAccepted_phase, inputTaken_cfg, inputTaken_phase, phaseNext, phaseIncrement_eq hw]
    rfl
  · rw [inputTaken_cfg, shiftNext, shiftWrap, alphabetSize_cast]
    rfl

/-! NUM.exact: the pair lies on the unit circle, and whole turns do not show in it. -/

/-- Under NUM.exact the difference of R102 is 0. -/
theorem numEnergyError_exact (p : ℝ) : numEnergyError numExact p = (0 : ℝ) := by
  have h : Real.cos p * Real.cos p + Real.sin p * Real.sin p - ((1 : ℤ) : ℝ) = 0 := by
    rw [← sq, ← sq, Real.cos_sq_add_sin_sq, Int.cast_one, sub_self]
  exact h

theorem numExact_ge_iff (x y : ℝ) : numExact.ge x y = true ↔ y ≤ x := decide_eq_true_iff

/-- R103's range, in the comparisons of NUM.exact. -/
theorem numExact_ge_of_mem_range {x : ℝ} (h0 : -1 ≤ x) (h1 : x ≤ 1) :
    numExact.ge (numExact.ofInt 1) x = true ∧ numExact.ge x (numExact.ofInt (-1)) = true :=
  ⟨(numExact_ge_iff ((1 : ℤ) : ℝ) x).mpr (by simpa using h1),
    (numExact_ge_iff x ((-1 : ℤ) : ℝ)).mpr (by simpa using h0)⟩

/-- NUM.exact meets what the spec owes of a NUM, with tolerance 0. -/
theorem numExact_lawful (c : Config) : NumLawful numExact c (0 : ℝ) where
  energy_le p _ := (numExact_ge_iff 0 _).mpr (le_of_eq (α := ℝ) (numEnergyError_exact p))
  energy_ge p _ :=
    (numExact_ge_iff _ (0 - 0)).mpr (le_of_eq (α := ℝ) ((sub_self 0).trans (numEnergyError_exact p).symm))
  cos_range p _ := numExact_ge_of_mem_range (Real.neg_one_le_cos p) (Real.cos_le_one p)
  sin_range p _ := numExact_ge_of_mem_range (Real.neg_one_le_sin p) (Real.sin_le_one p)
  at_zero := by simp [numIqgen, numExact]

/-- Settles O41, by cos² + sin² = 1 and the range of either. -/
theorem exactNumericsIsLawful : Obligations.ExactNumericsIsLawful := by
  refine ⟨numExact_lawful, ?_, fun x => Real.cos_sq_add_sin_sq (radians x.theta)⟩
  rintro p i q h
  obtain ⟨rfl, rfl⟩ : Real.cos p = i ∧ Real.sin p = q := Prod.mk.inj h
  exact ⟨Real.cos_sq_add_sin_sq p, Real.cos_mem_Icc p, Real.sin_mem_Icc p⟩

/-- IQGEN over the reals has period 2π. -/
theorem numIqgen_exact_add_turns (p : ℝ) (k : Int) :
    numIqgen numExact (p + 2 * Real.pi * (k : ℝ)) = numIqgen numExact p := by
  have hk : p + 2 * Real.pi * (k : ℝ) = p + k * (2 * Real.pi) := by rw [mul_comm]
  exact Prod.ext ((congrArg Real.cos hk).trans (Real.cos_add_int_mul_two_pi p k))
    ((congrArg Real.sin hk).trans (Real.sin_add_int_mul_two_pi p k))

theorem radians_add (θ η : Rat) : radians (θ + η) = radians θ + 2 * Real.pi * (η : ℝ) := by
  simp [radians, mul_add]

theorem pair_add_turns (θ : Rat) (k : Int) : (Sample.mk (θ + k)).pair = (Sample.mk θ).pair := by
  have hk : radians (θ + k) = radians θ + 2 * Real.pi * (k : ℝ) := by rw [radians_add, Rat.cast_intCast]
  exact (congrArg (numIqgen numExact) hk).trans (numIqgen_exact_add_turns (radians θ) k)

/-- Settles O42: the wrap leaves the phase or takes one whole turn from it. -/
theorem phaseWrapDoesNotShow : Obligations.PhaseWrapDoesNotShow := by
  refine ⟨numIqgen_exact_add_turns, pair_add_turns, fun θ => ?_⟩
  rcases le_or_gt θ (1 / 2) with h | h
  · rw [phaseWrap_of_le h]
  · have hturn : θ - 1 = θ + (-1 : Int) := by push_cast; ring
    rw [phaseWrap_of_lt h, hturn, pair_add_turns]

end Sys2Proof.Machine

namespace Sys2Proof.Machine

/-! Blocks P130 and P150 over any NUM. -/

section
variable {n : Numerics} {s : NumState n} {r : NumFlight n} {bw : n.Carrier} {sf fs : Nat} {b : Bool}

theorem numAdvance_of_not_last (h : r.idx + 1 ≠ nsamp s.cfg) :
    numAdvance s r =
      { s with
        phase := (numStepRegs s r).phase
        flight := some { r with shift := (numStepRegs s r).shift, idx := r.idx + 1 } } := by
  simp [numAdvance, busyAfterStep, h]

theorem numAdvance_of_last (h : r.idx + 1 = nsamp s.cfg) :
    numAdvance s r = { s with phase := (numStepRegs s r).phase, flight := none } := by
  simp [numAdvance, busyAfterStep, h]

/-- The registers after `k + 1` STEPs are those after `k`, stepped once more. -/
theorem numLoop_succ_regs (k : Nat) (r : NumRegs n) :
    (numLoop n bw sf fs b (k + 1) r).2 = numStep n bw sf fs b (numLoop n bw sf fs b k r).2 := by
  induction k generalizing r with
  | zero => rfl
  | succ k ih => exact ih (numStep n bw sf fs b r)

/-- The last of `k + 1` pairs shows the phase after `k` STEPs. -/
theorem numLoop_succ_pairs (k : Nat) (r : NumRegs n) :
    (numLoop n bw sf fs b (k + 1) r).1 =
      (numLoop n bw sf fs b k r).1 ++ [numIqgen n (numLoop n bw sf fs b k r).2.phase] := by
  induction k generalizing r with
  | zero => rfl
  | succ k ih => exact congrArg (numIqgen n r.phase :: ·) (ih (numStep n bw sf fs b r))

@[simp] theorem numLoop_length (k : Nat) (r : NumRegs n) : (numLoop n bw sf fs b k r).1.length = k := by
  induction k generalizing r with
  | zero => rfl
  | succ k ih => exact congrArg Nat.succ (ih (numStep n bw sf fs b r))

end

/-! The executable machine is NUM.exact: `State.toNum` commutes with every operation and its counterpart. -/

theorem radians_zero : radians 0 = numExact.zero := by simp [radians, numExact]

theorem operandShift_cast (v : Int) : (operandShift v : ℝ) = numExact.ofInt v := Rat.cast_intCast v

/-- An outcome of the executable machine, seen over NUM.exact. -/
noncomputable def outcomeToNum : Host.Outcome State Fault Refusal → Host.Outcome (NumState numExact) Fault Refusal
  | .next s => .next s.toNum
  | .fault f => .fault f
  | .refused why => .refused why

theorem toNum_fresh (c : Config) : (State.fresh c).toNum = numFresh numExact c := by
  simp only [State.toNum, State.fresh, numFresh, Option.map_none, List.map_nil, radians_zero]

theorem numConstruct_exact (bw sf fs : Rat) (p : SinkFailPolicy) :
    numConstruct numExact bw sf fs p = outcomeToNum (construct bw sf fs p) := by
  unfold numConstruct construct
  split_ifs
  · exact congrArg _ (toNum_fresh _).symm
  · rfl

theorem numAccept_toNum (s t : State) : numAccept s.toNum t.toNum = outcomeToNum (accept s t) := by
  unfold numAccept accept State.busy
  rw [toNum_cfg, toNum_flight, Option.isSome_map]
  split_ifs <;> rfl

theorem toNum_beginSymbol (s : State) (v : Int) (b : Bool) :
    (beginSymbol s v b).toNum = numBeginSymbol s.toNum v b := by
  unfold beginSymbol numBeginSymbol
  rw [toNum_cfg, ← operandShift_cast]
  split_ifs <;> rfl

/-! One STEP: the frequency in Hz, the phase in radians and the shift in chips, all as reals. -/

theorem numFreq_exact (c : Config) (b : Bool) (x : Rat) :
    numFreq numExact (c.bw : ℝ) c.sf c.fs b (x : ℝ) = (freqInst c b x : ℝ) := by
  cases b <;> simp [numFreq, numFreqPre, numFreqBase, numExact, freqInst, freqPre, freqBase, foff]

theorem numPhaseAdvance_exact (c : Config) (f θ : Rat) :
    numPhaseAdvance numExact c.fs (f : ℝ) (radians θ) = radians (θ + f / c.fs) := by
  rw [radians_add, Rat.cast_div, Rat.cast_natCast, ← mul_div_assoc]
  rfl

theorem radians_lt_radians_iff {θ η : Rat} : radians θ < radians η ↔ θ < η := by
  rw [radians, radians, mul_lt_mul_iff_right₀ Real.two_pi_pos, Rat.cast_lt]

/-- Comparing the radians with π is comparing the turns with 1/2. -/
theorem numPhaseWrap_exact (θ : Rat) : numPhaseWrap numExact (radians θ) = radians (phaseWrap θ) := by
  have hhalf : radians (1 / 2) = Real.pi := by rw [radians]; push_cast; ring
  have hpi : Real.pi < radians θ ↔ 1 / 2 < θ := by rw [← hhalf, radians_lt_radians_iff]
  rcases le_or_gt θ (1 / 2) with h | h
  · rw [phaseWrap_of_le h]
    exact if_neg (by simpa [numExact, hpi] using h)
  · have hturn : radians (θ - 1) = radians θ - 2 * Real.pi := by simp [radians, mul_sub]
    rw [phaseWrap_of_lt h, hturn]
    exact if_pos (by simpa [numExact, hpi] using h)

theorem numShiftWrap_exact (c : Config) (x : Rat) :
    numShiftWrap numExact c.sf (x : ℝ) = (shiftWrap c x : ℝ) := by
  have hN : numExact.ofInt (2 ^ c.sf) = ((2 ^ c.sf : Rat) : ℝ) := by simp [numExact]
  have hge : numExact.ge (x : ℝ) (numExact.ofInt (2 ^ c.sf)) = true ↔ 2 ^ c.sf ≤ x := by
    rw [hN]
    exact (numExact_ge_iff _ _).trans Rat.cast_le
  rcases lt_or_ge x (2 ^ c.sf) with h | h
  · rw [shiftWrap_of_lt h]
    exact if_neg (hge.not.mpr (not_le.mpr h))
  · rw [shiftWrap_of_le h, Rat.cast_sub, ← hN]
    exact if_pos (hge.mpr h)

/-- Block P130 in turns is block P130 in radians. -/
theorem numStep_exact (c : Config) (b : Bool) (θ x : Rat) :
    numStep numExact (c.bw : ℝ) c.sf c.fs b { phase := radians θ, shift := (x : ℝ) } =
      { phase := radians (phaseNext c b x θ), shift := (shiftNext c x : ℝ) } := by
  have hphase : numPhaseAdvance numExact c.fs (numFreq numExact (c.bw : ℝ) c.sf c.fs b (x : ℝ)) (radians θ) =
      radians (θ + phaseIncrement c b x) := by
    rw [numFreq_exact, numPhaseAdvance_exact]
    rfl
  have hshift : numShiftAdvance numExact (c.bw : ℝ) c.fs (x : ℝ) = ((x + stepsz c : Rat) : ℝ) := by
    simp [numShiftAdvance, numExact, stepsz]
  unfold numStep
  rw [hphase, hshift, numPhaseWrap_exact, numShiftWrap_exact]
  rfl

theorem numStepRegs_toNum (s : State) (r : InFlight) :
    numStepRegs s.toNum r.toNum =
      { phase := radians (phaseNext s.cfg r.inv r.shift s.phase), shift := (shiftNext s.cfg r.shift : ℝ) } := by
  rw [← numStep_exact]
  unfold numStepRegs
  rw [toNum_cfg, numBw_exact]
  rfl

theorem toNum_stepAdvance (s : State) (r : InFlight) : (stepAdvance s r).toNum = numAdvance s.toNum r.toNum := by
  rcases stepAdvance_cases s r with ⟨hidx, h⟩ | ⟨hidx, h⟩
  · rw [h, numAdvance_of_not_last (s := s.toNum) (r := r.toNum) hidx, numStepRegs_toNum]
    rfl
  · rw [h, numAdvance_of_last (s := s.toNum) (r := r.toNum) hidx, numStepRegs_toNum]
    rfl

theorem toNum_stepAccepted (s : State) (r : InFlight) :
    (stepAccepted s r).toNum = numAdvance (numEmit s.toNum) r.toNum := by
  have hemit : (emit s (stepSample s)).toNum = numEmit s.toNum := by
    simp [State.toNum, emit, numEmit, stepSample, Sample.toNum]
  rw [stepAccepted, toNum_stepAdvance, hemit]

theorem toNum_stepFailed (s : State) (r : InFlight) : (stepFailed s r).toNum = numFailed s.toNum r.toNum := by
  unfold stepFailed numFailed
  rw [toNum_cfg]
  cases s.cfg.sinkFail with
  | continueSymbol => exact toNum_stepAdvance s { r with sinkFailed := true }
  | haltSymbol => rfl

theorem numEngine_toNum (s : State) (r : InFlight) (a : SinkAnswer) :
    numEngine s.toNum r.toNum a = outcomeToNum (engine s r a) := by
  unfold numEngine engine
  rw [toNum_cfg, toNum_idx]
  split_ifs
  · cases a with
    | accept => exact congrArg _ (toNum_stepAccepted s r).symm
    | wait => rfl
    | fail => exact congrArg _ (toNum_stepFailed s r).symm
  · rfl

/-- The registers and the pairs of `k` STEPs over NUM.exact are those of the symbol in turns. -/
theorem numLoop_exact (c : Config) (v : Int) (b : Bool) (θ : Rat) (k : Nat) :
    numLoop numExact (c.bw : ℝ) c.sf c.fs b k { phase := radians θ, shift := numExact.ofInt v } =
      ((samplesUpTo c v b θ k).map Sample.toNum,
        { phase := radians (phaseAt c v b θ k), shift := (shiftAt c v k : ℝ) }) := by
  induction k with
  | zero =>
    rw [← operandShift_cast]
    rfl
  | succ k ih =>
    refine Prod.ext ?_ ?_
    · refine (numLoop_succ_pairs k _).trans ?_
      rw [ih]
      simp [samplesUpTo, List.range_succ, Sample.toNum]
    · refine (numLoop_succ_regs k _).trans ?_
      rw [ih]
      exact numStep_exact c b _ _

theorem toNum_synthesize (s : State) (v : Int) (b : Bool) : (synthesize s v b).toNum = numSynthesize s.toNum v b := by
  have hloop := numLoop_exact s.cfg v b s.phase (nsamp s.cfg)
  simp only [numSynthesize, numSynth, toNum_cfg, toNum_phase, numBw_exact, hloop]
  simp [State.toNum]

theorem numExec_toNum (i : Instr) (s : State) : numExec i s.toNum = outcomeToNum (exec i s) := by
  cases i with
  | reset =>
    rw [numExec, numExecReset, ← toNum_resetRegisters]
    exact numAccept_toNum s _
  | synth v b =>
    rw [numExec, numExecSynth, ← toNum_beginSymbol]
    exact numAccept_toNum s _

theorem numCommandLevel_toNum (i : Instr) (s : State) :
    numCommandLevel i s.toNum = outcomeToNum (commandLevel i s) := by
  cases i with
  | reset => exact numExec_toNum .reset s
  | synth v b =>
    rw [numCommandLevel, ← toNum_synthesize]
    exact numAccept_toNum s _

/-- Settles O53: every operation commutes with the reading of a state over NUM.exact. -/
theorem machineIsTheRulesOverExactNumerics : Obligations.MachineIsTheRulesOverExactNumerics := by
  refine ⟨fun bw sf fs p => ?_, fun i s => ?_, fun s r a => ?_, toNum_resetRegisters⟩
  · rw [numConstruct_exact]
    exact ⟨fun s => congrArg outcomeToNum, fun why => congrArg outcomeToNum⟩
  · rw [numExec_toNum, numCommandLevel_toNum]
    exact ⟨fun t => congrArg outcomeToNum, fun why => congrArg outcomeToNum, fun t => congrArg outcomeToNum,
      fun why => congrArg outcomeToNum⟩
  · rw [numEngine_toNum]
    exact ⟨fun t => congrArg outcomeToNum, fun f => congrArg outcomeToNum⟩

end Sys2Proof.Machine

namespace Sys2Proof.Machine

/-! Construction, RESET and a whole symbol over any NUM. -/

/-- A configuration that is CfgWF is accepted and bound (spec/41_control.md R121). -/
theorem construct_of_wf {bw : Rat} {sf fs : Nat} {p : SinkFailPolicy} (hw : Config.WF ⟨bw, sf, fs, p⟩) :
    construct bw sf fs p = .next (State.fresh ⟨bw, sf, fs, p⟩) := by
  obtain ⟨hbw, hsf, hfs⟩ := hw
  have hoffered : ConfigOffered bw sf fs :=
    ⟨hbw, Nat.cast_pos.mpr hsf, Nat.cast_pos.mpr hfs, Rat.den_natCast sf, Rat.den_natCast fs⟩
  rw [construct, if_pos hoffered, Rat.num_natCast, Rat.num_natCast]
  rfl

section
variable {n : Numerics} {s : NumState n} {r : NumFlight n}

theorem numConstruct_of_wf {bw : Rat} {sf fs : Nat} {p : SinkFailPolicy} (hw : Config.WF ⟨bw, sf, fs, p⟩) :
    numConstruct n bw sf fs p = .next (numFresh n ⟨bw, sf, fs, p⟩) := by
  rw [numConstruct, construct_of_wf hw]
  rfl

theorem numAccept_idle (t : NumState n) (hw : s.cfg.WF) (hi : s.flight = none) : numAccept s t = .next t :=
  numAccept_eq_next_iff.mpr ⟨hw, hi, rfl⟩

theorem numAccept_busy (t : NumState n) (hw : s.cfg.WF) (hb : s.flight ≠ none) :
    numAccept s t = .refused .commandWhileBusy := by
  rw [numAccept, if_neg (not_not.mpr hw), if_pos (Option.isSome_iff_ne_none.mpr hb)]

theorem numExec_busy (i : Instr) (hw : s.cfg.WF) (hb : s.flight ≠ none) :
    numExec i s = .refused .commandWhileBusy := by
  cases i with
  | reset => exact numAccept_busy _ hw hb
  | synth v b => exact numAccept_busy _ hw hb

theorem numBeginSymbol_flight (v : Int) (b : Bool) (hn : 0 < nsamp s.cfg) :
    (numBeginSymbol s v b).flight = some { shift := n.ofInt v, inv := b, idx := 0 } := by
  rcases numBeginSymbol_cases s v b with ⟨-, h⟩ | ⟨h, -⟩
  · rw [h]
  · exact absurd h hn.ne'

/-- While a symbol is in flight, the first of the units of progress is one STEP with its emit. -/
theorem numSteps_succ_of_flight (k : Nat) (hf : s.flight = some r) (hidx : r.idx < nsamp s.cfg) :
    numSteps (k + 1) s = numSteps k (numAdvance (numEmit s) r) := by
  have hengine : numEngine s r .accept = .next (numAdvance (numEmit s) r) :=
    numEngine_eq_next_iff.mpr ⟨hidx, .inl ⟨rfl, rfl⟩⟩
  simp only [numSteps, hf, hengine]

/-- The first pair of a symbol shows the phase at its acceptance (spec/43_synth.md R155). -/
theorem numSteps_one_beginSymbol_out (v : Int) (b : Bool) (hn : 0 < nsamp s.cfg) :
    ∃ w, numSteps 1 (numBeginSymbol s v b) = .next w ∧ w.out = s.out ++ [numIqgen n s.phase] := by
  refine ⟨_, numSteps_succ_of_flight 0 (numBeginSymbol_flight v b hn) (by simpa using hn), ?_⟩
  rw [numAdvance_out, numEmit_out, numBeginSymbol_out, numBeginSymbol_phase]

end

/-- Settles O54: construction gives the fresh instance, and RESET the reset registers. -/
theorem resetOverEveryNumerics : Obligations.ResetOverEveryNumerics := by
  intro n
  refine ⟨fun bw sf fs p hbw hsf hfs => ?_, fun s hw hi => ?_, fun s hw hb i => numExec_busy i hw hb⟩
  · exact ⟨_, numConstruct_of_wf ⟨hbw, hsf, hfs⟩, rfl, rfl, rfl, rfl⟩
  · refine ⟨_, numAccept_idle _ hw hi, rfl, rfl, rfl, rfl, numAccept_idle _ hw rfl, fun v b hn hzero => ?_⟩
    obtain ⟨w, hsteps, hout⟩ := numSteps_one_beginSymbol_out (s := numResetRegisters s) v b hn
    exact ⟨_, w, numAccept_idle _ hw rfl, hsteps, hout.trans (by rw [numResetRegisters_phase, hzero]; rfl)⟩

/-- `k` STEPs of block P150 from the registers of `s` and `r`, the latched direction kept. -/
def numLoopFrom {n : Numerics} (s : NumState n) (r : NumFlight n) (k : Nat) :
    List (n.Carrier × n.Carrier) × NumRegs n :=
  numLoop n (numBw n s.cfg) s.cfg.sf s.cfg.fs r.inv k { phase := s.phase, shift := r.shift }

/-- `s` idle again after the last `k` STEPs of the symbol in flight. -/
def numSymbolEnd {n : Numerics} (s : NumState n) (r : NumFlight n) (k : Nat) : NumState n :=
  { s with
    phase := (numLoopFrom s r k).2.phase
    flight := none
    out := s.out ++ (numLoopFrom s r k).1 }

section
variable {n : Numerics} {s : NumState n} {r : NumFlight n}

/-- The last STEP ends the symbol. -/
theorem numAdvance_numEmit_of_last (h : r.idx + 1 = nsamp s.cfg) : numAdvance (numEmit s) r = numSymbolEnd s r 1 :=
  numAdvance_of_last (s := numEmit s) h

/-- The STEPs that a symbol has still to make are all block P150 asks of it (spec/43_synth.md R154). -/
theorem numSteps_eq_numSymbolEnd {k : Nat} (hf : s.flight = some r) (hidx : r.idx + (k + 1) = nsamp s.cfg) :
    numSteps (k + 1) s = .next (numSymbolEnd s r (k + 1)) := by
  induction k generalizing s r with
  | zero =>
    rw [numSteps_succ_of_flight 0 hf (by omega), numAdvance_numEmit_of_last hidx]
    rfl
  | succ k ih =>
    have hrest : r.idx + 1 + (k + 1) = nsamp s.cfg := by omega
    have hmore := numAdvance_of_not_last (s := numEmit s) (r := r) (show r.idx + 1 ≠ nsamp s.cfg by omega)
    rw [numSteps_succ_of_flight (k + 1) hf (by omega), hmore, ih rfl hrest]
    simp [numSymbolEnd, numLoopFrom, numLoop, numStepRegs, numEmit]

/-- The command level is the start transition and the end of its NSAMP STEPs; with NSAMP = 0 there is no STEP. -/
theorem numSteps_numBeginSymbol (v : Int) (b : Bool) :
    numSteps (nsamp s.cfg) (numBeginSymbol s v b) = .next (numSynthesize s v b) := by
  cases hk : nsamp s.cfg with
  | zero =>
    rcases numBeginSymbol_cases s v b with ⟨h, -⟩ | ⟨-, h⟩
    · exact absurd hk h.ne'
    · rw [h]
      simp [numSteps, numSynthesize, numSynth, hk, numLoop]
  | succ k =>
    rw [numSteps_eq_numSymbolEnd (numBeginSymbol_flight v b (by omega)) (by simp [hk])]
    simp [numSymbolEnd, numLoopFrom, numSynthesize, numSynth, hk]

end

/-- Settles O55: both levels accept the command, and the NSAMP STEPs end the symbol as block P150 does. -/
theorem commandLevelIsSampleLevelOverEveryNumerics : Obligations.CommandLevelIsSampleLevelOverEveryNumerics :=
  fun _ _ v b hw hi => ⟨_, _, _, numAccept_idle _ hw hi, numAccept_idle _ hw hi, numSteps_numBeginSymbol v b, rfl,
    numLoop_length _ _⟩

end Sys2Proof.Machine

namespace Sys2Proof.Machine

/-! RESET (spec/41_control.md R120), and the first pair of a symbol. -/

theorem exec_reset_of_idle {s : State} (hw : s.cfg.WF) (hi : s.flight = none) :
    exec .reset s = .next (resetRegisters s) :=
  accept_idle _ hw hi

/-- The first pair of an accepted SYNTH shows the phase at its acceptance (spec/43_synth.md R155). -/
theorem exec_synth_step_out {s : State} (v : Int) (b : Bool) (hw : s.cfg.WF) (hi : s.flight = none)
    (hn : 0 < nsamp s.cfg) (hq : s.QuietFor 1) :
    ∃ t u, exec (.synth v b) s = .next t ∧ step t = .next u ∧ u.out = s.out ++ [{ theta := s.phase }] := by
  have hstep := step_of_accept (s := midSymbol s v b 0) hw rfl hn
    (sinkSays_of_quiet (k := 0) (midSymbol_quietFor_one hq))
  refine ⟨_, _, execSynth_eq_midSymbol hw hi hn, hstep, ?_⟩
  rw [stepAccepted_out]
  simp [midSymbol, samplesUpTo, stepSample, phaseAt]

/-- The pair at phase 0 (spec/40_numerics.md R104). -/
theorem pair_zero : (Sample.mk 0).pair = (1, 0) := by simp [Sample.pair, radians]

/-- Settles O9: RESET is the accepted reset of the registers, and the next symbol's first pair shows its phase 0. -/
theorem resetCommand : Obligations.ResetCommand := by
  refine ⟨fun s hw hb => ⟨?_, ?_⟩, fun s hw hb => ?_, fun c hw => ?_, fun s v b hw hb hn hq => ?_⟩
  · exact exec_reset_of_idle hw (busy_eq_false.mp hb)
  · exact exec_reset_of_idle (s := resetRegisters s) hw rfl
  · obtain ⟨r, hf⟩ := busy_eq_true.mp hb
    exact exec_of_busy .reset hw hf
  · exact exec_reset_of_idle (s := State.fresh c) hw rfl
  · have hreset := exec_reset_of_idle hw (busy_eq_false.mp hb)
    obtain ⟨t, u, hsynth, hstep, hout⟩ := exec_synth_step_out (s := resetRegisters s) v b hw rfl hn hq
    exact ⟨_, t, u, _, hreset, hsynth, hstep, hout, pair_zero⟩

end Sys2Proof.Machine

namespace Sys2Proof.Machine

/-! The index of the next sample, and the engine's fault outside the precondition of a STEP (spec/10_state.md R27,
spec/42_sample_step.md R130). -/

/-- Where the symbol goes on after a STEP, `idx` is one higher and still below NSAMP. -/
theorem stepAdvance_idx_lt {s : State} {r r' : InFlight} (hidx : r.idx < nsamp s.cfg)
    (h : r' ∈ (stepAdvance s r).flight) : r'.idx < nsamp s.cfg := by
  rcases stepAdvance_cases s r with ⟨hne, ht⟩ | ⟨-, ht⟩ <;> rw [ht] at h <;> cases h
  exact lt_of_le_of_ne hidx hne

/-- Where a symbol is in flight after the engine's work, its `idx` is below NSAMP. -/
theorem engine_idx_lt {s t : State} {r r' : InFlight} {a : SinkAnswer} (h : engine s r a = .next t)
    (hf : s.flight = some r) (hr : r' ∈ t.flight) : r'.idx < nsamp s.cfg := by
  obtain ⟨hidx, ⟨-, rfl⟩ | ⟨-, rfl⟩ | ⟨-, out, f, rfl⟩⟩ := engine_next_cases h
  · rw [hf] at hr
    cases hr
    exact hidx
  · cases hr
  · exact stepAdvance_idx_lt (s := { s with out := out }) (r := { r with sinkFailed := f }) hidx hr

/-- A SYNTH that leaves a symbol in flight leaves it before its first sample, and there is one. -/
theorem beginSymbol_idx_lt {s : State} {v : Int} {b : Bool} {r : InFlight} (hr : r ∈ (beginSymbol s v b).flight) :
    r.idx < nsamp s.cfg := by
  rcases beginSymbol_cases s v b with ⟨hn, ht⟩ | ⟨-, ht⟩ <;> rw [ht] at hr <;> cases hr
  exact hn

/-- After any step that goes on, `idx` is below NSAMP while it holds a value. -/
theorem step_idx_lt {s t : State} {r' : InFlight} (h : step s = .next t) (hr : r' ∈ t.flight) :
    r'.idx < nsamp s.cfg := by
  obtain ⟨-, ⟨-, rfl⟩ | ⟨-, hi, -, rfl⟩ | ⟨-, -, w, ws, -, -, rfl⟩ | ⟨-, -, w, ws, v, b, -, -, rfl⟩ | ⟨-, r, hf, he⟩⟩ :=
    step_next_cases h
  · cases hr
  · simp [hi] at hr
  · cases hr
  · exact beginSymbol_idx_lt (s := commandTaken (inputTaken s)) hr
  · exact engine_idx_lt (s := inputTaken s) he hf hr

/-- Settles O47: the configuration is kept, and a step leaves `idx` below NSAMP. -/
theorem stepKeepsSoundness : Obligations.StepKeepsSoundness := by
  intro s t hs h
  have hcfg := step_cfg h
  exact ⟨hcfg ▸ hs.1, fun r' hr' => hcfg ▸ step_idx_lt h hr'⟩

theorem exec_ne_fault (i : Instr) (s : State) (f : Fault) : exec i s ≠ .fault f := by
  obtain ⟨t, ht⟩ := exec_eq_accept i s
  rw [ht]
  exact accept_ne_fault

/-- An idle block settles on no fault: it waits, runs a command, or refuses a reserved word. -/
theorem idleAction_ne_fault (s : State) (f : Fault) : idleAction s ≠ .settled (.fault f) := by
  cases hp : s.program with
  | nil => simp [idleAction_nil hp]
  | cons w ws =>
    rw [idleAction_cons hp]
    cases hd : decode w with
    | command i => simp [commandAction_command hd]
    | invalid why => simp [commandAction_invalid hd]

/-- A busy block settles on a fault only where the engine does, outside the precondition of a STEP. -/
theorem nsamp_le_of_busyAction_fault {s : State} {r : InFlight} {i : Input} {f : Fault}
    (h : busyAction s r i = .settled (.fault f)) : nsamp s.cfg ≤ r.idx := by
  unfold busyAction at h
  split at h
  · simp at h
  · rw [Action.settled.injEq] at h
    exact engine_eq_fault_iff.mp h

/-- A step faults only where arbitration settles on the fault: no command raises one. -/
theorem control_of_step_fault {s : State} {f : Fault} (h : step s = .fault f) : control s = .settled (.fault f) := by
  unfold step at h
  cases hc : control s with
  | settled o => rw [hc] at h; exact congrArg _ h
  | run i t => rw [hc] at h; exact absurd h (exec_ne_fault i t f)

/-- The one way to a fault: a symbol in flight whose `idx` has run to NSAMP or beyond (log entry 8). -/
theorem step_fault_cases {s : State} {f : Fault} (h : step s = .fault f) :
    ∃ r, s.flight = some r ∧ nsamp s.cfg ≤ r.idx := by
  have hc := control_of_step_fault h
  by_cases hw : s.cfg.WF
  swap
  · simp [control_of_not_wf hw] at hc
  cases hr : (inputNow s).reset
  swap
  · simp [control_of_reset hw hr] at hc
  cases hf : s.flight with
  | none =>
    rw [control_of_idle hw hr hf] at hc
    exact absurd hc (idleAction_ne_fault _ f)
  | some r =>
    rw [control_of_busy hw hr hf] at hc
    exact ⟨r, rfl, nsamp_le_of_busyAction_fault (s := inputTaken s) hc⟩

/-- Settles O48: a fault needs an `idx` that a sound state excludes. -/
theorem soundStatesDoNotFault : Obligations.SoundStatesDoNotFault := by
  rintro s f ⟨-, hidx⟩ h
  obtain ⟨r, hf, hle⟩ := step_fault_cases h
  exact absurd (hidx r hf) (not_lt.mpr hle)

end Sys2Proof.Machine

namespace Sys2Proof.Machine

/-! One STEP as a whole: both cases of R139, and block P130 in radians. -/

/-- The STEP that makes `idx` = NSAMP ends the symbol. -/
theorem stepAccepted_of_last {s : State} {r : InFlight} (h : r.idx + 1 = nsamp s.cfg) :
    stepAccepted s r =
      { s with
        phase := phaseNext s.cfg r.inv r.shift s.phase
        flight := none
        out := s.out ++ [stepSample s]
        returns := s.returns ++ [completionOf r.sinkFailed] } := by
  rcases stepAdvance_cases (emit s (stepSample s)) r with ⟨hne, -⟩ | ⟨-, ht⟩
  · exact absurd h hne
  · exact ht

/-- Any other STEP leaves its symbol in flight, with `shift` advanced and `idx` one higher. -/
theorem stepAccepted_of_not_last {s : State} {r : InFlight} (h : r.idx + 1 ≠ nsamp s.cfg) :
    stepAccepted s r =
      { s with
        phase := phaseNext s.cfg r.inv r.shift s.phase
        flight := some { r with shift := shiftNext s.cfg r.shift, idx := r.idx + 1 }
        out := s.out ++ [stepSample s] } := by
  rcases stepAdvance_cases (emit s (stepSample s)) r with ⟨-, ht⟩ | ⟨hlast, -⟩
  · exact ht
  · exact absurd hlast h

/-- Settles O28: the accepted STEP, last of its symbol or not. -/
theorem stepIdxEndsTheSymbol : Obligations.StepIdxEndsTheSymbol := by
  intro s r hw hf hidx ha
  rw [step_of_accept hw hf hidx ha]
  exact ⟨fun hlast => congrArg _ (stepAccepted_of_last (s := inputTaken s) hlast),
    fun hmore => congrArg _ (stepAccepted_of_not_last (s := inputTaken s) hmore)⟩

@[simp] theorem stepAccepted_cfg (s : State) (r : InFlight) : (stepAccepted s r).cfg = s.cfg :=
  stepAdvance_cfg _ r

@[simp] theorem stepAccepted_program (s : State) (r : InFlight) : (stepAccepted s r).program = s.program :=
  stepAdvance_program _ r

@[simp] theorem stepAccepted_inputs (s : State) (r : InFlight) : (stepAccepted s r).inputs = s.inputs := by
  by_cases h : r.idx + 1 = nsamp s.cfg
  · rw [stepAccepted_of_last h]
  · rw [stepAccepted_of_not_last h]

/-- Settles O27: P130's registers in radians are those of the STEP in turns, and both cases of R139 give the rest. -/
theorem stepRefinesTheRadianRules : Obligations.StepRefinesTheRadianRules := by
  intro s r hw hf hidx ha
  rw [numStep_exact]
  refine ⟨_, stepSample s, step_of_accept hw hf hidx ha, stepAccepted_out _ r, rfl,
    congrArg radians (stepAccepted_phase _ r), fun hmore => ?_, fun hlast => ?_,
    stepAccepted_cfg _ r, stepAccepted_program _ r, stepAccepted_inputs _ r⟩
  · rw [stepAccepted_of_not_last (s := inputTaken s) hmore.ne]
    exact ⟨rfl, _, rfl, rfl, rfl, rfl, rfl⟩
  · rw [stepAccepted_of_last (s := inputTaken s) hlast]

end Sys2Proof.Machine

namespace Sys2Proof.Machine

/-! The frequency of a STEP: its band and its jump where `shift` wraps (spec/42_sample_step.md R138, R141). -/

theorem freqPre_false (c : Config) (x : Rat) : freqPre c false x = freqBase c x := rfl

theorem freqPre_true (c : Config) (x : Rat) : freqPre c true x = c.bw - freqBase c x := rfl

/-- For a shift in [0, N) the base frequency lies in [0, BW). -/
theorem freqBase_mem_range {c : Config} {x : Rat} (hw : c.WF) (h0 : 0 ≤ x) (h1 : x < 2 ^ c.sf) :
    0 ≤ freqBase c x ∧ freqBase c x < c.bw := by
  obtain ⟨hbw, -, -⟩ := hw
  have hN : (0 : Rat) < 2 ^ c.sf := by positivity
  rw [freqBase, alphabetSize_cast]
  exact ⟨by positivity, (div_lt_iff₀ hN).mpr (mul_lt_mul_of_pos_left h1 hbw)⟩

/-- In both directions the frequency before the offset lies in [0, BW]. -/
theorem freqPre_mem_Icc {c : Config} {x : Rat} (hw : c.WF) (b : Bool) (h0 : 0 ≤ x) (h1 : x < 2 ^ c.sf) :
    0 ≤ freqPre c b x ∧ freqPre c b x ≤ c.bw := by
  obtain ⟨hlo, hhi⟩ := freqBase_mem_range hw h0 h1
  cases b with
  | false => rw [freqPre_false]; exact ⟨hlo, hhi.le⟩
  | true => rw [freqPre_true]; exact ⟨by linarith, by linarith⟩

/-- The offset centres the band of width BW at FS/4. -/
theorem freqInst_mem_band {c : Config} {x : Rat} (hw : c.WF) (b : Bool) (h0 : 0 ≤ x) (h1 : x < 2 ^ c.sf) :
    (c.fs : Rat) / 4 - c.bw / 2 ≤ freqInst c b x ∧ freqInst c b x ≤ (c.fs : Rat) / 4 + c.bw / 2 := by
  obtain ⟨hlo, hhi⟩ := freqPre_mem_Icc hw b h0 h1
  rw [freqInst, foff]
  exact ⟨by linarith, by linarith⟩

/-- The lower edge of the band is met: by the up-chirp at shift 0. -/
theorem freqInst_false_zero (c : Config) : freqInst c false 0 = (c.fs : Rat) / 4 - c.bw / 2 := by
  simp [freqInst, freqPre, freqBase, foff]

/-- Settles O31: the band of either direction, whose lower edge is FS/4 − BW/2. -/
theorem frequencyBand : Obligations.FrequencyBand := by
  intro c hw
  refine ⟨fun x h0 h1 => ?_, fun hnonneg => ?_, fun h2bw b x h0 h1 => ?_⟩
  · obtain ⟨hlo, hhi⟩ := freqBase_mem_range hw h0 h1
    refine ⟨⟨hlo, hhi⟩, ?_, fun b => freqInst_mem_band hw b h0 h1⟩
    rw [freqPre_true]
    exact ⟨by linarith, by linarith⟩
  · have hedge := hnonneg false 0 le_rfl (by positivity)
    rw [freqInst_false_zero] at hedge
    linarith
  · have hlo := (freqInst_mem_band hw b h0 h1).1
    linarith

/-- A shift moved by `y` chips moves the base frequency by BW × `y` / N. -/
theorem freqBase_add (c : Config) (x y : Rat) : freqBase c (x + y) = freqBase c x + c.bw * y / 2 ^ c.sf := by
  rw [freqBase, freqBase, alphabetSize_cast, mul_add, add_div]

/-- N chips are the whole bandwidth. -/
theorem freqBase_sub_alphabetSize (c : Config) (x : Rat) : freqBase c (x - 2 ^ c.sf) = freqBase c x - c.bw := by
  have hN : (2 : Rat) ^ c.sf ≠ 0 := by positivity
  rw [sub_eq_add_neg, freqBase_add, mul_neg, neg_div, mul_div_cancel_right₀ _ hN, ← sub_eq_add_neg]

theorem freqBase_shiftNext_of_wrap {c : Config} {x : Rat} (h : 2 ^ c.sf ≤ x + c.bw / c.fs) :
    freqBase c (shiftNext c x) = freqBase c x + c.bw * (c.bw / c.fs) / 2 ^ c.sf - c.bw := by
  rw [shiftNext, stepsz, shiftWrap_of_le h, freqBase_sub_alphabetSize, freqBase_add]

theorem freqBase_shiftNext_of_no_wrap {c : Config} {x : Rat} (h : x + c.bw / c.fs < 2 ^ c.sf) :
    freqBase c (shiftNext c x) = freqBase c x + c.bw * (c.bw / c.fs) / 2 ^ c.sf := by
  rw [shiftNext, stepsz, shiftWrap_of_lt h, freqBase_add]

/-- Settles O33: the base frequency's change, as it is for the up-chirp and mirrored in BW for the down-chirp. -/
theorem frequencyJumpsAtTheShiftWrap : Obligations.FrequencyJumpsAtTheShiftWrap := by
  intro c x _
  simp only [freqPre_false, freqPre_true]
  refine ⟨fun h => ?_, fun h => ?_⟩
  · rw [freqBase_shiftNext_of_wrap h]
    exact ⟨rfl, by ring⟩
  · rw [freqBase_shiftNext_of_no_wrap h]
    exact ⟨rfl, by ring⟩

/-! The increment of the phase (spec/42_sample_step.md R142), with s = BW / FS. -/

theorem fs_cast_pos {c : Config} (hw : c.WF) : (0 : Rat) < c.fs := by
  obtain ⟨-, -, hfs⟩ := hw
  exact_mod_cast hfs

/-- The band of the frequency, divided by FS. -/
theorem phaseIncrement_mem_band {c : Config} {x : Rat} (hw : c.WF) (b : Bool) (h0 : 0 ≤ x) (h1 : x < 2 ^ c.sf) :
    1 / 4 - c.bw / c.fs / 2 ≤ phaseIncrement c b x ∧ phaseIncrement c b x ≤ 1 / 4 + c.bw / c.fs / 2 := by
  have hfs := fs_cast_pos hw
  obtain ⟨hlo, hhi⟩ := freqInst_mem_band hw b h0 h1
  have hs : c.bw / c.fs / 2 * c.fs = c.bw / 2 := by field_simp
  rw [phaseIncrement, le_div_iff₀ hfs, div_le_iff₀ hfs, sub_mul, add_mul, hs]
  exact ⟨by linarith, by linarith⟩

/-- Under CfgValid s is at most 1, so the increment lies in [−1/4, 3/4]. -/
theorem phaseIncrement_mem_of_valid {c : Config} {x : Rat} (hv : c.Valid) (b : Bool) (h0 : 0 ≤ x) (h1 : x < 2 ^ c.sf) :
    -(1 / 4) ≤ phaseIncrement c b x ∧ phaseIncrement c b x ≤ 3 / 4 := by
  obtain ⟨hw, hbw⟩ := hv
  have hs : c.bw / c.fs ≤ 1 := (div_le_one (fs_cast_pos hw)).mpr hbw
  obtain ⟨hlo, hhi⟩ := phaseIncrement_mem_band hw b h0 h1
  exact ⟨by linarith, by linarith⟩

/-- Under CfgNonNegFreq s is at most 1/2, so the increment lies in [0, 1/2]. -/
theorem phaseIncrement_mem_of_nonNegFreq {c : Config} {x : Rat} (hn : c.NonNegFreq) (b : Bool) (h0 : 0 ≤ x)
    (h1 : x < 2 ^ c.sf) : 0 ≤ phaseIncrement c b x ∧ phaseIncrement c b x ≤ 1 / 2 := by
  obtain ⟨hw, hbw⟩ := hn
  have hs : c.bw / c.fs ≤ 1 / 2 := (div_le_iff₀ (fs_cast_pos hw)).mpr (by linarith)
  obtain ⟨hlo, hhi⟩ := phaseIncrement_mem_band hw b h0 h1
  exact ⟨by linarith, by linarith⟩

/-- Above half a turn and not beyond one and a half, the one subtraction brings the phase back into the range of R22;
below, the phase stays where it is. -/
theorem phaseWrap_mem_range {θ : Rat} (h0 : -(1 / 2) < θ) (h1 : θ ≤ 3 / 2) :
    -(1 / 2) < phaseWrap θ ∧ phaseWrap θ ≤ 1 / 2 := by
  rcases le_or_gt θ (1 / 2) with h | h
  · rw [phaseWrap_of_le h]
    exact ⟨h0, h⟩
  · rw [phaseWrap_of_lt h]
    exact ⟨by linarith, by linarith⟩

/-- Under CfgNonNegFreq a STEP keeps the phase in (−1/2, 1/2]. -/
theorem phaseNext_mem_range {c : Config} {x θ : Rat} (hn : c.NonNegFreq) (b : Bool) (h0 : 0 ≤ x) (h1 : x < 2 ^ c.sf)
    (hlo : -(1 / 2) < θ) (hhi : θ ≤ 1 / 2) : -(1 / 2) < phaseNext c b x θ ∧ phaseNext c b x θ ≤ 1 / 2 := by
  obtain ⟨hd0, hd1⟩ := phaseIncrement_mem_of_nonNegFreq hn b h0 h1
  exact phaseWrap_mem_range (by linarith) (by linarith)

/-- Settles O32: the band of the increment under each predicate, and what one subtraction leaves of the phase. -/
theorem incrementBounds : Obligations.IncrementBounds := by
  intro c b x θ hw h0 h1
  refine ⟨phaseIncrement_mem_band hw b h0 h1, fun hv => ?_, fun hn => ?_⟩
  · obtain ⟨hlo, hhi⟩ := phaseIncrement_mem_of_valid hv b h0 h1
    refine ⟨hlo, hhi, fun hθ => ⟨by linarith, fun hwrap => ?_⟩⟩
    rw [phaseNext, phaseWrap_of_lt hwrap]
    linarith
  · obtain ⟨hlo, hhi⟩ := phaseIncrement_mem_of_nonNegFreq hn b h0 h1
    exact ⟨hlo, hhi, phaseNext_mem_range hn b h0 h1⟩

end Sys2Proof.Machine

namespace Sys2Proof.Machine

/-! The range of the phase over the life of a block (spec/43_synth.md R163). -/

theorem valid_of_nonNegFreq {c : Config} (hn : c.NonNegFreq) : c.Valid := by
  obtain ⟨hw, hbw⟩ := hn
  have hpos := hw.1
  exact ⟨hw, by linarith⟩

/-- Under CfgValid STEPSZ is at most 1. -/
theorem stepsz_le_one {c : Config} (hv : c.Valid) : stepsz c ≤ 1 :=
  (div_le_one (fs_cast_pos hv.1)).mpr hv.2

/-- Under CfgValid the one subtraction of STEP.SHIFT suffices. -/
theorem stepsz_le_alphabetSize {c : Config} (hv : c.Valid) : stepsz c ≤ alphabetSize c := by
  have hN : (1 : Rat) ≤ alphabetSize c := by rw [alphabetSize_cast]; exact one_le_pow₀ (by norm_num)
  exact (stepsz_le_one hv).trans hN

/-- Under CfgValid a STEP keeps the phase at or below half a turn. -/
theorem phaseNext_le_half {c : Config} {x θ : Rat} (hv : c.Valid) (b : Bool) (h0 : 0 ≤ x) (h1 : x < 2 ^ c.sf)
    (hθ : θ ≤ 1 / 2) : phaseNext c b x θ ≤ 1 / 2 := by
  obtain ⟨-, hd⟩ := phaseIncrement_mem_of_valid hv b h0 h1
  rcases le_or_gt (θ + phaseIncrement c b x) (1 / 2) with h | h
  · rw [phaseNext, phaseWrap_of_le h]
    exact h
  · rw [phaseNext, phaseWrap_of_lt h]
    linarith

/-- What 0, the phase before and every STEP.PHASE with a shift in [0, N) satisfy, the phase after a step satisfies. -/
theorem step_phase_induction {P : Rat → Prop} {s t : State} (hs : s.ShiftInRange) (hzero : P 0) (hkept : P s.phase)
    (hnext : ∀ b x, 0 ≤ x → x < 2 ^ s.cfg.sf → P (phaseNext s.cfg b x s.phase)) (h : step s = .next t) :
    P t.phase := by
  rcases step_phase_cases h with hk | ⟨h0, -⟩ | ⟨-, r, hf, -, -, hn⟩
  · rwa [hk]
  · rwa [h0]
  · obtain ⟨hr0, hr1⟩ := hs r hf
    rw [hn]
    exact hnext r.inv r.shift hr0 (by rwa [alphabetSize_cast] at hr1)

theorem step_keeps_phaseInRange {s t : State} (hn : s.cfg.NonNegFreq) (hs : s.ShiftInRange) (hp : s.PhaseInRange)
    (h : step s = .next t) : t.PhaseInRange :=
  step_phase_induction (P := fun θ => -(1 / 2) < θ ∧ θ ≤ 1 / 2) hs (by norm_num) hp
    (fun b _ h0 h1 => phaseNext_mem_range hn b h0 h1 hp.1 hp.2) h

theorem step_keeps_phase_le_half {s t : State} (hv : s.cfg.Valid) (hs : s.ShiftInRange) (hp : s.phase ≤ 1 / 2)
    (h : step s = .next t) : t.phase ≤ 1 / 2 :=
  step_phase_induction (P := fun θ => θ ≤ 1 / 2) hs (by norm_num) hp
    (fun b _ h0 h1 => phaseNext_le_half hv b h0 h1 hp) h

/-- What keeps the phase in its range through a step, and is itself kept. -/
def State.PhaseSafe (s : State) : Prop :=
  s.cfg.NonNegFreq ∧ s.ProgramInAlphabet ∧ s.ShiftInRange ∧ s.PhaseInRange

theorem step_keeps_phaseSafe (s t : State) (hs : s.PhaseSafe) (h : step s = .next t) : t.PhaseSafe := by
  obtain ⟨hn, ha, hshift, hp⟩ := hs
  exact ⟨step_cfg h ▸ hn, step_keeps_programInAlphabet ha h,
    step_keeps_shiftInRange (stepsz_le_alphabetSize (valid_of_nonNegFreq hn)) ha hshift h,
    step_keeps_phaseInRange hn hshift hp h⟩

/-- A fresh block, whatever the host presents from the alphabet and whatever the outside world does. -/
theorem fresh_phaseSafe {c : Config} {program : List Word32} {inputs : List Input} (hn : c.NonNegFreq)
    (ha : ({ State.fresh c with program := program, inputs := inputs } : State).ProgramInAlphabet) :
    ({ State.fresh c with program := program, inputs := inputs } : State).PhaseSafe := by
  obtain ⟨-, -, hshift, hp⟩ := fresh_invariants hn.1
  exact ⟨hn, ha, hshift, hp⟩

/-- A block with BW = FS, two STEPs into an up-chirp of value 0 (spec/95_test_vectors.md V14). -/
def belowHalfTurn : State :=
  { State.fresh { bw := 16, sf := 4, fs := 16, sinkFail := .continueSymbol } with
    phase := -(7 / 16)
    flight := some { shift := 2, inv := false, idx := 2, sinkFailed := false } }

/-- Its next STEP adds −1/8 turn, and no wrap brings it back. -/
theorem belowHalfTurn_step : ∃ t, step belowHalfTurn = .next t ∧ t.phase = -(9 / 16) := by
  refine ⟨_, step_of_accept (s := belowHalfTurn) (by decide) rfl (by decide +kernel) (by decide), ?_⟩
  rw [stepAccepted_phase]
  norm_num [belowHalfTurn, inputTaken, phaseNext, phaseWrap, phaseIncrement, freqInst, freqPre, freqBase, foff,
    State.fresh, alphabetSize]

/-- Settles O51: every step keeps `State.PhaseSafe`, which a fresh block meets; the lower bound fails in a STEP of
negative frequency. -/
theorem phaseStaysInRange : Obligations.PhaseStaysInRange := by
  refine ⟨fun s t hn ha hs hp h => ?_, fun s t hv ha hs hp h => ?_, fun k c program inputs t hn ha h => ?_, ?_⟩
  · exact (step_keeps_phaseSafe s t ⟨hn, ha, hs, hp⟩ h).2
  · exact ⟨step_keeps_programInAlphabet ha h, step_keeps_shiftInRange (stepsz_le_alphabetSize hv) ha hs h,
      step_keeps_phase_le_half hv hs hp h⟩
  · obtain ⟨-, -, -, hp⟩ := runFor_preserves step_keeps_phaseSafe (fresh_phaseSafe hn ha) h
    exact hp
  · obtain ⟨t, hstep, hphase⟩ := belowHalfTurn_step
    refine ⟨belowHalfTurn, t, ?_, ?_, ?_, ?_, hstep, ?_⟩
    · norm_num [Config.Valid, Config.WF, belowHalfTurn]
    · simp [State.ProgramInAlphabet, belowHalfTurn]
    · norm_num [State.ShiftInRange, belowHalfTurn]
    · norm_num [State.PhaseInRange, belowHalfTurn]
    · norm_num [State.PhaseInRange, hphase]

end Sys2Proof.Machine

namespace Sys2Proof.Machine

/-! A whole symbol in quiet surroundings (spec/43_synth.md R150 to R166). -/

theorem exec_synth_of_idle {s : State} (v : Int) (b : Bool) (hw : s.cfg.WF) (hi : s.flight = none) :
    exec (.synth v b) s = .next (beginSymbol s v b) :=
  accept_idle _ hw hi

theorem beginSymbol_of_pos {s : State} (v : Int) (b : Bool) (hn : 0 < nsamp s.cfg) :
    beginSymbol s v b =
      { s with flight := some { shift := (v : Rat), inv := b, idx := 0, sinkFailed := false } } := by
  rcases beginSymbol_cases s v b with ⟨-, h⟩ | ⟨h, -⟩
  · exact h
  · exact absurd h hn.ne'

theorem beginSymbol_of_zero {s : State} (v : Int) (b : Bool) (hn : nsamp s.cfg = 0) :
    beginSymbol s v b = endSymbol s false := by
  rcases beginSymbol_cases s v b with ⟨h, -⟩ | ⟨-, h⟩
  · exact absurd hn h.ne'
  · exact h

@[simp] theorem samplesUpTo_zero (c : Config) (v : Int) (b : Bool) (θ : Rat) : samplesUpTo c v b θ 0 = [] := rfl

@[simp] theorem samplesUpTo_length (c : Config) (v : Int) (b : Bool) (θ : Rat) (k : Nat) :
    (samplesUpTo c v b θ k).length = k := by
  simp [samplesUpTo]

theorem samplesUpTo_succ (c : Config) (v : Int) (b : Bool) (θ : Rat) (k : Nat) :
    samplesUpTo c v b θ (k + 1) = samplesUpTo c v b θ k ++ [{ theta := phaseAt c v b θ k }] := by
  simp [samplesUpTo, List.range_succ]

theorem beginSymbol_eq_midSymbol {s : State} (v : Int) (b : Bool) (hn : 0 < nsamp s.cfg) :
    beginSymbol s v b = midSymbol s v b 0 := by
  simp [beginSymbol_of_pos v b hn, midSymbol, phaseAt, shiftAt, operandShift]

/-- `s` after SYNTH `v`, `b` and the NSAMP quiet instants of its STEPs: the command-level result, with the instants
taken. -/
def symbolDone (s : State) (v : Int) (b : Bool) : State :=
  { synthesize s v b with inputs := s.inputs.drop (nsamp s.cfg) }

/-- The last STEP takes the symbol to its end. -/
theorem stepAccepted_midSymbol_last {s : State} {v : Int} {b : Bool} {k : Nat} (hk : k + 1 = nsamp s.cfg) :
    stepAccepted (inputTaken (midSymbol s v b k))
      { shift := shiftAt s.cfg v k, inv := b, idx := k, sinkFailed := false } = symbolDone s v b := by
  rw [stepAccepted_of_last (s := inputTaken (midSymbol s v b k)) hk]
  simp [symbolDone, synthesize, midSymbol, inputTaken, stepSample, completionOf, ← hk, samplesUpTo_succ, phaseAt]

theorem step_midSymbol_last {s : State} {v : Int} {b : Bool} {k : Nat} (hw : s.cfg.WF) (hk : k + 1 = nsamp s.cfg)
    (hq : (midSymbol s v b k).QuietFor 1) : step (midSymbol s v b k) = .next (symbolDone s v b) := by
  have hidx : k < nsamp s.cfg := Nat.lt_of_succ_le hk.le
  rw [step_of_accept (s := midSymbol s v b k) hw rfl hidx (sinkSays_of_quiet (k := 0) hq), stepAccepted_midSymbol_last hk]

/-- `k` quiet steps into a SYNTH, short of its last, its symbol is in flight as `shiftAt` and `phaseAt` say. -/
theorem runFor_beginSymbol_mid {s : State} (v : Int) (b : Bool) {k : Nat} (hw : s.cfg.WF) (hk : k < nsamp s.cfg)
    (hq : s.QuietFor k) : runFor k (beginSymbol s v b) = .next (midSymbol s v b k) := by
  rw [beginSymbol_eq_midSymbol v b (Nat.zero_lt_of_lt hk)]
  exact runFor_midSymbol hw hk hq

/-- NSAMP quiet steps after its start transition a SYNTH is over, with what block P150 leaves. -/
theorem runFor_beginSymbol {s : State} (v : Int) (b : Bool) (hw : s.cfg.WF) (hq : s.QuietFor (nsamp s.cfg)) :
    runFor (nsamp s.cfg) (beginSymbol s v b) = .next (symbolDone s v b) := by
  cases hk : nsamp s.cfg with
  | zero =>
    rw [beginSymbol_of_zero v b hk, runFor_zero]
    simp [endSymbol, symbolDone, synthesize, hk, phaseAt, completionOf]
  | succ k =>
    rw [hk] at hq
    have hmid := runFor_beginSymbol_mid v b hw (k := k) (by omega) (quietFor_mono (Nat.le_succ k) hq)
    have hlast := step_midSymbol_last (v := v) (b := b) hw hk.symm (midSymbol_quietFor_one hq)
    rw [runFor_add k 1 hmid, runFor_succ_of_next 0 hlast, runFor_zero]

@[simp] theorem symbolDone_cfg (s : State) (v : Int) (b : Bool) : (symbolDone s v b).cfg = s.cfg := rfl

@[simp] theorem symbolDone_flight (s : State) (v : Int) (b : Bool) : (symbolDone s v b).flight = none := rfl

@[simp] theorem symbolDone_phase (s : State) (v : Int) (b : Bool) :
    (symbolDone s v b).phase = phaseAt s.cfg v b s.phase (nsamp s.cfg) := rfl

@[simp] theorem symbolDone_out (s : State) (v : Int) (b : Bool) :
    (symbolDone s v b).out = s.out ++ samplesUpTo s.cfg v b s.phase (nsamp s.cfg) := rfl

/-- What is quiet for two symbols is quiet for another one after the first. -/
theorem symbolDone_quietFor {s : State} (v : Int) (b : Bool) (hq : s.QuietFor (2 * nsamp s.cfg)) :
    (symbolDone s v b).QuietFor (nsamp s.cfg) := by
  intro i hi
  refine hq i ?_
  rw [two_mul, List.take_add]
  exact List.mem_append_right _ hi

/-- Settles O14. -/
theorem idleBlockWaits : Obligations.IdleBlockWaits := by
  intro s hw hi hp hr
  rw [step, control_of_idle hw hr hi, idleAction_nil (s := inputTaken s) hp]
  rfl

/-- Settles O17: with samples to emit the start transition latches the operands. -/
theorem synthStartTransition : Obligations.SynthStartTransition := by
  intro s v b hw hb hn
  rw [exec_synth_of_idle v b hw (busy_eq_false.mp hb), beginSymbol_of_pos v b hn]

/-- Settles O18: NSAMP = 0, so the symbol ends in its start transition. -/
theorem synthWithNoSamples : Obligations.SynthWithNoSamples := by
  intro s v b hw hb hbw
  obtain ⟨-, hzero, -⟩ := sampleCountIsTheFloor s.cfg hw
  have hi := busy_eq_false.mp hb
  have hidle : endSymbol s false = { s with returns := s.returns ++ [.done] } := by
    rw [endSymbol, ← hi]
    rfl
  rw [exec_synth_of_idle v b hw hi, beginSymbol_of_zero v b (hzero.mpr hbw), hidle]

/-- Settles O19: a whole symbol appends NSAMP pairs. -/
theorem sampleCount : Obligations.SampleCount := by
  intro s v b hw hb hq
  obtain ⟨hfloor, -, -⟩ := sampleCountIsTheFloor s.cfg hw
  refine ⟨_, _, exec_synth_of_idle v b hw (busy_eq_false.mp hb), runFor_beginSymbol v b hw hq, rfl, ?_⟩
  rw [symbolDone_out, List.length_append, samplesUpTo_length, ← hfloor]
  push_cast
  ring

/-- Settles O20: the pair recorded is the phase at acceptance. -/
theorem firstSampleShowsThePhaseBefore : Obligations.FirstSampleShowsThePhaseBefore := by
  intro s v b hw hb hn hq
  obtain ⟨t, u, hsynth, hstep, hout⟩ := exec_synth_step_out v b hw (busy_eq_false.mp hb) hn hq
  refine ⟨t, u, _, hsynth, hstep, hout, rfl, fun hzero => ?_⟩
  rw [hzero]
  exact pair_zero

/-- Settles O21: both symbols run to their end, and the second one's first pair is recorded at the phase it starts
with. -/
theorem phaseIsContinuousAcrossSymbols : Obligations.PhaseIsContinuousAcrossSymbols := by
  intro s v v' b b' hw hb hn hq
  have hfirst := runFor_beginSymbol v b hw (quietFor_mono (by omega) hq)
  have hsecond := runFor_beginSymbol (s := symbolDone s v b) v' b' hw (symbolDone_quietFor v b hq)
  refine ⟨_, _, _, _, exec_synth_of_idle v b hw (busy_eq_false.mp hb), hfirst,
    exec_synth_of_idle (s := symbolDone s v b) v' b' hw rfl, beginSymbol_phase _ v' b', hsecond, ?_⟩
  have hpos : s.out.length + nsamp s.cfg = (symbolDone s v b).out.length := by simp
  rw [symbolDone_out, hpos, List.getElem?_append_right le_rfl, Nat.sub_self]
  simp [samplesUpTo, hn, phaseAt]

/-- Settles O22. -/
theorem commandLevelIsSampleLevel : Obligations.CommandLevelIsSampleLevel := by
  intro s v b hw hb hq
  have hi := busy_eq_false.mp hb
  exact ⟨_, _, exec_synth_of_idle v b hw hi, accept_idle (synthesize s v b) hw hi, runFor_beginSymbol v b hw hq⟩

/-- Settles O23: short of NSAMP steps the symbol is under way, and then it is over. -/
theorem symbolRunsExactlyNsampSteps : Obligations.SymbolRunsExactlyNsampSteps := by
  intro s v b hw hb _ hq
  refine ⟨_, exec_synth_of_idle v b hw (busy_eq_false.mp hb), fun k hk => ?_, ?_⟩
  · exact ⟨_, _, runFor_beginSymbol_mid v b hw hk (quietFor_mono hk.le hq), rfl, rfl, rfl⟩
  · exact ⟨_, runFor_beginSymbol v b hw hq, rfl⟩

/-- The start transition leaves the block busy unless there is nothing to emit. -/
theorem beginSymbol_busy_iff (s : State) (v : Int) (b : Bool) :
    (beginSymbol s v b).busy = true ↔ nsamp s.cfg ≠ 0 := by
  rcases beginSymbol_cases s v b with ⟨hn, h⟩ | ⟨hn, h⟩
  · rw [h]
    exact iff_of_true rfl hn.ne'
  · rw [h]
    exact iff_of_false (by simp [State.busy]) (not_not.mpr hn)

/-- Block P150 over NUM.exact is the symbol in turns: its pairs, and the phase it leaves. -/
theorem numSynth_exact (c : Config) (v : Int) (b : Bool) (θ : Rat) :
    numSynth numExact c v b (radians θ) =
      ((samplesUpTo c v b θ (nsamp c)).map Sample.pair, radians (phaseAt c v b θ (nsamp c))) := by
  unfold numSynth
  rw [numBw_exact, numLoop_exact]
  rfl

/-- Settles O24. -/
theorem symbolRefinesTheRadianRules : Obligations.SymbolRefinesTheRadianRules := by
  refine ⟨fun s v b hw hb hq => ?_, fun s v b hw hb => ?_⟩
  · exact ⟨_, _, _, exec_synth_of_idle v b hw (busy_eq_false.mp hb), beginSymbol_busy_iff s v b,
      runFor_beginSymbol v b hw hq, rfl, symbolDone_out s v b, samplesUpTo_length _ v b _ _,
      (numSynth_exact s.cfg v b s.phase).symm⟩
  · obtain ⟨r, hf⟩ := busy_eq_true.mp hb
    exact exec_of_busy _ hw hf

end Sys2Proof.Machine

namespace Sys2Proof.Machine

/-! Closed forms along a symbol (spec/43_synth.md R157 to R165), with s = STEPSZ. -/

theorem inAlphabet_iff {c : Config} {v : Int} : InAlphabet c v ↔ 0 ≤ v ∧ v < 2 ^ c.sf := by
  simp [InAlphabet, alphabetSize]

/-- The increments of the two directions at one shift add to half a turn. -/
theorem phaseIncrement_true_add_false {c : Config} (hw : c.WF) (x : Rat) :
    phaseIncrement c true x + phaseIncrement c false x = 1 / 2 := by
  simp only [phaseIncrement_eq hw, if_true, Bool.false_eq_true, if_false]
  ring

/-- Settles O34: `shift` takes no notice of the direction, so both runs have the same. -/
theorem inverseSymmetry : Obligations.InverseSymmetry := by
  intro s v k hw hb hk hq
  have hi := busy_eq_false.mp hb
  exact ⟨_, _, _, _, _, _, exec_synth_of_idle v false hw hi, exec_synth_of_idle v true hw hi,
    runFor_beginSymbol_mid v false hw hk hq, runFor_beginSymbol_mid v true hw hk hq, rfl, rfl, rfl,
    phaseIncrement_true_add_false hw _⟩

/-! `shift`. -/

theorem shiftNext_of_lt {c : Config} {x : Rat} (h : x + stepsz c < 2 ^ c.sf) : shiftNext c x = x + stepsz c :=
  shiftWrap_of_lt h

theorem shiftNext_of_le {c : Config} {x : Rat} (h : 2 ^ c.sf ≤ x + stepsz c) :
    shiftNext c x = x + stepsz c - 2 ^ c.sf :=
  shiftWrap_of_le h

/-- Every wrap of `shift` takes N from it. -/
theorem shiftAt_eq_add_sub (c : Config) (v : Int) (k : Nat) :
    ∃ z : Int, shiftAt c v k = v + k * stepsz c - 2 ^ c.sf * z := by
  induction k with
  | zero => exact ⟨0, by simp [shiftAt, operandShift]⟩
  | succ k ih =>
    obtain ⟨z, hz⟩ := ih
    rcases lt_or_ge (shiftAt c v k + stepsz c) (2 ^ c.sf) with h | h
    · refine ⟨z, ?_⟩
      rw [shiftAt, shiftNext_of_lt h, hz]
      push_cast
      ring
    · refine ⟨z + 1, ?_⟩
      rw [shiftAt, shiftNext_of_le h, hz]
      push_cast
      ring

/-- In a symbol of the alphabet `shift` stays in [0, N), where STEPSZ ≤ N. -/
theorem shiftAt_mem_range {c : Config} {v : Int} (hw : c.WF) (hN : stepsz c ≤ alphabetSize c) (hv : InAlphabet c v)
    (k : Nat) : 0 ≤ shiftAt c v k ∧ shiftAt c v k < 2 ^ c.sf := by
  rw [← alphabetSize_cast]
  induction k with
  | zero => exact hv.shift_mem_range
  | succ k ih => exact shiftNext_mem_range (stepsz_pos hw).le hN ih.1 ih.2

/-- A rational in [0, n) that differs from `y` by a multiple of `n` is the remainder of `y` by `n`. -/
theorem eq_sub_mul_floor {x y n : Rat} {z : Int} (hx : x = y - n * z) (h0 : 0 ≤ x) (h1 : x < n) :
    x = y - n * ⌊y / n⌋ := by
  have hn : 0 < n := h0.trans_lt h1
  have hz : ⌊y / n⌋ = z := by
    rw [Int.floor_eq_iff, le_div_iff₀ hn, div_lt_iff₀ hn]
    constructor <;> linarith
  rw [hz, hx]

/-- Settles O35: `shift` is in [0, N), and short of `v` + `k` s by a multiple of N. -/
theorem shiftClosedForm : Obligations.ShiftClosedForm := by
  intro s v b k hw hb h0 h1 hN hk hq
  have hN' : stepsz s.cfg ≤ alphabetSize s.cfg := by rwa [alphabetSize_cast]
  obtain ⟨hlo, hhi⟩ := shiftAt_mem_range hw hN' (inAlphabet_iff.mpr ⟨h0, h1⟩) k
  obtain ⟨z, hz⟩ := shiftAt_eq_add_sub s.cfg v k
  refine ⟨_, _, _, exec_synth_of_idle v b hw (busy_eq_false.mp hb), runFor_beginSymbol_mid v b hw hk hq, rfl,
    eq_sub_mul_floor hz hlo hhi, ?_, phaseIncrement_eq hw b _⟩
  rw [freqPre, freqBase, alphabetSize_cast]

/-- Settles O39: the run is that of any symbol, and STEP.SHIFT has its two cases whatever the shift. -/
theorem outOfAlphabetRunsUnchanged : Obligations.OutOfAlphabetRunsUnchanged := by
  intro s v b hw hb _ hq
  refine ⟨⟨_, _, exec_synth_of_idle v b hw (busy_eq_false.mp hb), runFor_beginSymbol v b hw hq, by simp,
    fun k hk => ?_⟩, rfl, fun k hk => ?_, fun k hk => shiftNext_of_lt hk⟩
  · exact ⟨_, _, runFor_beginSymbol_mid v b hw hk (quietFor_mono hk.le hq), rfl, rfl⟩
  · rw [shiftAt, shiftNext_of_le hk, stepsz]
    ring

/-! The phase. -/

/-- The sum of the increments of the first `k` STEPs. -/
def incrementSum (c : Config) (v : Int) (b : Bool) (k : Nat) : Rat :=
  ((List.range k).map fun j => phaseIncrement c b (shiftAt c v j)).sum

/-- The number of the first `k` STEPs whose wrap test fires. -/
def wrapCount (c : Config) (v : Int) (b : Bool) (θ : Rat) (k : Nat) : Nat :=
  (List.range k).countP fun j => decide (1 / 2 < phaseAt c v b θ j + phaseIncrement c b (shiftAt c v j))

theorem incrementSum_succ (c : Config) (v : Int) (b : Bool) (k : Nat) :
    incrementSum c v b (k + 1) = incrementSum c v b k + phaseIncrement c b (shiftAt c v k) := by
  simp [incrementSum, List.range_succ]

theorem wrapCount_succ (c : Config) (v : Int) (b : Bool) (θ : Rat) (k : Nat) :
    wrapCount c v b θ (k + 1) = wrapCount c v b θ k +
      if 1 / 2 < phaseAt c v b θ k + phaseIncrement c b (shiftAt c v k) then 1 else 0 := by
  simp [wrapCount, List.range_succ, List.countP_append, List.countP_cons]

/-- Each increment is added in full, and each wrap takes one turn. -/
theorem phaseAt_eq (c : Config) (v : Int) (b : Bool) (θ : Rat) (k : Nat) :
    phaseAt c v b θ k = θ + incrementSum c v b k - wrapCount c v b θ k := by
  induction k with
  | zero => simp [phaseAt, incrementSum, wrapCount]
  | succ k ih =>
    rw [incrementSum_succ, wrapCount_succ, phaseAt, phaseNext]
    rcases le_or_gt (phaseAt c v b θ k + phaseIncrement c b (shiftAt c v k)) (1 / 2) with h | h
    · rw [phaseWrap_of_le h, if_neg (not_lt.mpr h), ih]
      push_cast
      ring
    · rw [phaseWrap_of_lt h, if_pos h, ih]
      push_cast
      ring

/-- Under the premises of R163 the phase stays in its range all through a symbol. -/
theorem phaseAt_mem_range {c : Config} {v : Int} {b : Bool} {θ : Rat} (hn : c.NonNegFreq) (hv : InAlphabet c v)
    (hlo : -(1 / 2) < θ) (hhi : θ ≤ 1 / 2) (k : Nat) :
    -(1 / 2) < phaseAt c v b θ k ∧ phaseAt c v b θ k ≤ 1 / 2 := by
  induction k with
  | zero => exact ⟨hlo, hhi⟩
  | succ k ih =>
    obtain ⟨h0, h1⟩ := shiftAt_mem_range hn.1 (stepsz_le_alphabetSize (valid_of_nonNegFreq hn)) hv k
    exact phaseNext_mem_range hn b h0 h1 ih.1 ih.2

/-- Settles O36. -/
theorem phaseClosedForm : Obligations.PhaseClosedForm := by
  intro s v b hw hb hq
  exact ⟨_, _, exec_synth_of_idle v b hw (busy_eq_false.mp hb), runFor_beginSymbol v b hw hq,
    phaseAt_eq s.cfg v b s.phase _, fun hn hv hp => phaseAt_mem_range hn hv hp.1 hp.2 _⟩

/-! The wrap of the highest value. -/

/-- As long as the ramp from the value stays below N, `shift` is on it. -/
theorem shiftAt_of_ramp_lt {c : Config} {v : Int} {k : Nat} (hw : c.WF) (h : v + k * stepsz c < 2 ^ c.sf) :
    shiftAt c v k = v + k * stepsz c := by
  induction k with
  | zero => simp [shiftAt, operandShift]
  | succ k ih =>
    have hs := stepsz_pos hw
    push_cast at h ⊢
    have hk : shiftAt c v k = v + k * stepsz c := ih (by linarith)
    rw [shiftAt, shiftNext_of_lt (by rw [hk]; linarith), hk]
    ring

/-- Fewer than FS / BW steps climb by less than 1. -/
theorem mul_stepsz_lt_one {c : Config} {k : Nat} (hw : c.WF) (hk : k < ⌈(c.fs : Rat) / c.bw⌉₊) :
    k * stepsz c < 1 := by
  have hfs := fs_cast_pos hw
  have hlt : (k : Rat) * c.bw < c.fs := (lt_div_iff₀ hw.1).mp (Nat.lt_ceil.mp hk)
  rwa [stepsz, ← mul_div_assoc, div_lt_one hfs]

/-- FS / BW steps, rounded up, climb by at least 1. -/
theorem one_le_ceil_mul_stepsz {c : Config} (hw : c.WF) : 1 ≤ ⌈(c.fs : Rat) / c.bw⌉₊ * stepsz c := by
  have hle : (c.fs : Rat) ≤ ⌈(c.fs : Rat) / c.bw⌉₊ * c.bw := (div_le_iff₀ hw.1).mp (Nat.le_ceil _)
  rwa [stepsz, ← mul_div_assoc, one_le_div (fs_cast_pos hw)]

/-- The highest value climbs without a wrap before step ceil(1/s). -/
theorem shiftAt_highest {c : Config} {k : Nat} (hw : c.WF) (hk : k < ⌈(c.fs : Rat) / c.bw⌉₊) :
    shiftAt c (2 ^ c.sf - 1) k = 2 ^ c.sf - 1 + k * stepsz c ∧ shiftAt c (2 ^ c.sf - 1) k < 2 ^ c.sf := by
  have hlt := mul_stepsz_lt_one hw hk
  have hramp := shiftAt_of_ramp_lt (c := c) (v := 2 ^ c.sf - 1) (k := k) hw (by push_cast; linarith)
  push_cast at hramp
  exact ⟨hramp, by linarith⟩

/-- At step ceil(1/s), here `n` + 1, the ramp reaches N, and one subtraction brings it back to [0, s). -/
theorem shiftAt_highest_wrap {c : Config} {n : Nat} (hw : c.WF) (hn : ⌈(c.fs : Rat) / c.bw⌉₊ = n + 1) :
    2 ^ c.sf ≤ shiftAt c (2 ^ c.sf - 1) n + stepsz c ∧
      shiftAt c (2 ^ c.sf - 1) (n + 1) = (n + 1) * stepsz c - 1 := by
  obtain ⟨hramp, -⟩ := shiftAt_highest hw (k := n) (by omega)
  have hone := one_le_ceil_mul_stepsz hw
  rw [hn] at hone
  push_cast at hone
  have hwrap : 2 ^ c.sf ≤ shiftAt c (2 ^ c.sf - 1) n + stepsz c := by rw [hramp]; linarith
  refine ⟨hwrap, ?_⟩
  rw [shiftAt, shiftNext_of_le hwrap, hramp]
  ring

/-- Settles O38: the ramp below N, the wrap at step ceil(1/s), and the fall of the frequency there. -/
theorem cyclicShiftWrapsAround : Obligations.CyclicShiftWrapsAround := by
  rintro c ⟨hw, -⟩
  refine ⟨fun k hk => shiftAt_highest hw hk, ?_⟩
  obtain ⟨n, hn⟩ : ∃ n, ⌈(c.fs : Rat) / c.bw⌉₊ = n + 1 :=
    Nat.exists_eq_succ_of_ne_zero (Nat.ceil_pos.mpr (div_pos (fs_cast_pos hw) hw.1)).ne'
  have hone := one_le_ceil_mul_stepsz hw
  have hlt := mul_stepsz_lt_one hw (k := n) (by omega)
  obtain ⟨hwrap, hshift⟩ := shiftAt_highest_wrap hw hn
  obtain ⟨hjump, -⟩ := (frequencyJumpsAtTheShiftWrap c (shiftAt c (2 ^ c.sf - 1) n) hw).1 hwrap
  rw [hn] at hone ⊢
  push_cast at hone ⊢
  refine ⟨⟨hshift, ?_, ?_⟩, ?_⟩
  · rw [hshift]
    linarith
  · rw [hshift, ← stepsz]
    linarith
  · rw [shiftAt, hjump]
    ring

end Sys2Proof.Machine

namespace Sys2Proof.Machine

/-! Rotations of 0, …, `M` − 1. -/

/-- Going round from `a`, each residue comes exactly once. -/
theorem existsUnique_add_mod {a M j : Nat} (hj : j < M) : ∃! k, k < M ∧ (a + k) % M = j := by
  have himage : j ∈ (Finset.Ico a (a + M)).image (· % M) := by rwa [Nat.image_Ico_mod, Finset.mem_range]
  obtain ⟨i, hi, rfl⟩ := Finset.mem_image.mp himage
  obtain ⟨hai, hia⟩ := Finset.mem_Ico.mp hi
  refine ⟨i - a, ⟨by omega, by rw [Nat.add_sub_cancel' hai]⟩, ?_⟩
  rintro k ⟨hk, hmod⟩
  have hinj := Nat.mod_injOn_Ico a M (Finset.mem_coe.mpr (Finset.mem_Ico.mpr ⟨Nat.le_add_right a k, by omega⟩))
    (Finset.mem_coe.mpr hi) hmod
  omega

/-- A sum over the residues is the same wherever it begins. -/
theorem sum_range_add_mod (f : Nat → Rat) (a M : Nat) :
    ∑ k ∈ Finset.range M, f ((a + k) % M) = ∑ j ∈ Finset.range M, f j := by
  calc ∑ k ∈ Finset.range M, f ((a + k) % M)
      _ = ∑ i ∈ Finset.Ico a (a + M), f (i % M) := by rw [Finset.sum_Ico_eq_sum_range, Nat.add_sub_cancel_left]
      _ = ∑ j ∈ (Finset.Ico a (a + M)).image (· % M), f j := (Finset.sum_image (Nat.mod_injOn_Ico a M)).symm
      _ = ∑ j ∈ Finset.range M, f j := by rw [Nat.image_Ico_mod]

/-- An arithmetic progression summed. -/
theorem sum_range_affine (α β : Rat) (M : Nat) :
    ∑ j ∈ Finset.range M, (α * j + β) = α * (M * (M - 1) / 2) + β * M := by
  induction M with
  | zero => simp
  | succ M ih =>
    rw [Finset.sum_range_succ, ih]
    push_cast
    ring

/-! An integer oversampling ratio: FS = m × BW (spec/43_synth.md R167). -/

section
variable {c : Config} {m : Nat}

theorem stepsz_of_ratio (hw : c.WF) (hm : 1 ≤ m) (hr : (c.fs : Rat) = m * c.bw) : stepsz c = 1 / m := by
  have hbw := hw.1.ne'
  have hm' : (m : Rat) ≠ 0 := Nat.cast_ne_zero.mpr (by omega)
  rw [stepsz, hr]
  field_simp

theorem nsamp_of_ratio (hw : c.WF) (hr : (c.fs : Rat) = m * c.bw) : nsamp c = m * 2 ^ c.sf := by
  obtain ⟨-, -, hexact⟩ := sampleCountIsTheFloor c hw
  refine hexact _ ?_
  rw [hr]
  push_cast
  ring

/-- With STEPSZ = 1/m, STEP.SHIFT goes round the mN values `a`/m. -/
theorem shiftNext_div {a : Nat} (hm : 1 ≤ m) (hs : stepsz c = 1 / m) (ha : a < m * 2 ^ c.sf) :
    shiftNext c (a / m) = ((a + 1) % (m * 2 ^ c.sf) : Nat) / m := by
  have hm' : (0 : Rat) < m := by exact_mod_cast hm
  have hnext : (a : Rat) / m + stepsz c = (a + 1 : Nat) / m := by
    rw [hs]
    push_cast
    ring
  rcases Nat.lt_or_ge (a + 1) (m * 2 ^ c.sf) with h | h
  · rw [shiftNext_of_lt, hnext, Nat.mod_eq_of_lt h]
    rw [hnext, div_lt_iff₀' hm']
    exact_mod_cast h
  · have hlast : a + 1 = m * 2 ^ c.sf := by omega
    have hN : ((a + 1 : Nat) : Rat) / m = 2 ^ c.sf := by
      rw [hlast]
      push_cast
      field_simp
    rw [shiftNext_of_le (by rw [hnext, hN]), hnext, hN, hlast, Nat.mod_self]
    simp

/-- `shift` at the `k`-th STEP of a symbol of value `a`: `k` places round from `a`. -/
theorem shiftAt_eq_mod_div {a : Nat} (hm : 1 ≤ m) (hs : stepsz c = 1 / m) (ha : a < 2 ^ c.sf) (k : Nat) :
    shiftAt c a k = ((m * a + k) % (m * 2 ^ c.sf) : Nat) / m := by
  have hM : 0 < m * 2 ^ c.sf := by positivity
  induction k with
  | zero =>
    have hm' : (m : Rat) ≠ 0 := Nat.cast_ne_zero.mpr (by omega)
    rw [Nat.add_zero, Nat.mod_eq_of_lt (Nat.mul_lt_mul_of_pos_left ha hm)]
    push_cast [shiftAt, operandShift]
    field_simp
  | succ k ih => rw [shiftAt, ih, shiftNext_div hm hs (Nat.mod_lt _ hM), Nat.mod_add_mod, Nat.add_assoc]

/-- The increments of the up-chirp at 0, 1/m, …, (mN − 1)/m, summed. -/
theorem sum_phaseIncrement_false_div (hw : c.WF) (hm : 1 ≤ m) (hs : stepsz c = 1 / m) :
    ∑ j ∈ Finset.range (m * 2 ^ c.sf), phaseIncrement c false (j / m) =
      (m : Rat) * 2 ^ c.sf / 4 - 1 / (2 * (m : Rat)) := by
  have hm' : (m : Rat) ≠ 0 := Nat.cast_ne_zero.mpr (by omega)
  have hs' : c.bw / c.fs = 1 / m := hs
  have haffine (j : Nat) : phaseIncrement c false (j / m) = 1 / m / 2 ^ c.sf / m * j + (1 / 4 - 1 / m / 2) := by
    rw [phaseIncrement_eq hw, hs', if_neg Bool.false_ne_true]
    ring
  simp only [haffine, sum_range_affine]
  push_cast
  field_simp
  ring

/-- The down-chirp's increments make up half a turn with the up-chirp's at each of the mN values. -/
theorem sum_phaseIncrement_div (hw : c.WF) (b : Bool) (hm : 1 ≤ m) (hs : stepsz c = 1 / m) :
    ∑ j ∈ Finset.range (m * 2 ^ c.sf), phaseIncrement c b (j / m) =
      (m : Rat) * 2 ^ c.sf / 4 + (if b then 1 / (2 * (m : Rat)) else -(1 / (2 * (m : Rat)))) := by
  have hup := sum_phaseIncrement_false_div hw hm hs
  cases b with
  | false => rwa [if_neg Bool.false_ne_true, ← sub_eq_add_neg]
  | true =>
    have hboth : ∑ j ∈ Finset.range (m * 2 ^ c.sf), phaseIncrement c true (j / m) +
        ∑ j ∈ Finset.range (m * 2 ^ c.sf), phaseIncrement c false (j / m) = m * 2 ^ c.sf * (1 / 2) := by
      rw [← Finset.sum_add_distrib]
      simp [phaseIncrement_true_add_false hw]
    rw [if_pos rfl]
    linarith

/-- Over one symbol the increments are those at every `j`/m, in the order of the rotation. -/
theorem incrementSum_of_ratio {a : Nat} (hw : c.WF) (b : Bool) (hm : 1 ≤ m) (hs : stepsz c = 1 / m)
    (ha : a < 2 ^ c.sf) :
    incrementSum c a b (m * 2 ^ c.sf) =
      (m : Rat) * 2 ^ c.sf / 4 + (if b then 1 / (2 * (m : Rat)) else -(1 / (2 * (m : Rat)))) := by
  calc incrementSum c a b (m * 2 ^ c.sf)
      _ = ∑ k ∈ Finset.range (m * 2 ^ c.sf), phaseIncrement c b (shiftAt c a k) := rfl
      _ = ∑ k ∈ Finset.range (m * 2 ^ c.sf), phaseIncrement c b (((m * a + k) % (m * 2 ^ c.sf) : Nat) / m) := by
        simp only [shiftAt_eq_mod_div hm hs ha]
      _ = ∑ j ∈ Finset.range (m * 2 ^ c.sf), phaseIncrement c b (j / m) :=
        sum_range_add_mod (fun j => phaseIncrement c b (j / m)) _ _
      _ = _ := sum_phaseIncrement_div hw b hm hs

end

/-- Settles O37: `shift` goes once round the mN values `j`/m, so the increments sum to the same whatever the value. -/
theorem wholeSymbolAdvance : Obligations.WholeSymbolAdvance := by
  intro s v b m hw hb hm hr h0 h1 hq
  obtain ⟨a, rfl⟩ := Int.eq_ofNat_of_zero_le h0
  have ha : a < 2 ^ s.cfg.sf := by exact_mod_cast h1
  have hs := stepsz_of_ratio hw hm hr
  have hn := nsamp_of_ratio hw hr
  have hm' : (m : Rat) ≠ 0 := Nat.cast_ne_zero.mpr (by omega)
  have hshift := shiftAt_eq_mod_div (c := s.cfg) hm hs ha
  have hsum := incrementSum_of_ratio hw b hm hs ha
  refine ⟨hn, fun j hj => ?_, ?_, hn ▸ hsum, fun hsf => ?_⟩
  · simpa [hshift, div_left_inj' hm'] using existsUnique_add_mod (a := m * a) hj
  · rw [hn, hshift, Nat.add_mod_right, ← Nat.add_zero (m * a), ← hshift]
    rfl
  · refine ⟨_, _, m * 2 ^ (s.cfg.sf - 2) - wrapCount s.cfg a b s.phase (nsamp s.cfg),
      exec_synth_of_idle a b hw (busy_eq_false.mp hb), runFor_beginSymbol a b hw hq, ?_⟩
    have hfour : (2 : Rat) ^ s.cfg.sf = 4 * 2 ^ (s.cfg.sf - 2) := by
      rw [← pow_mul_pow_sub (2 : Rat) hsf]
      norm_num
    rw [symbolDone_phase, phaseAt_eq, hn, hsum, hfour]
    push_cast
    ring

end Sys2Proof.Machine

namespace Sys2Proof.Machine

/-! Refusals: a command presented to a busy block (spec/60_exceptions.md R199), and a configuration that is not CfgWF
(R182). -/

/-- Settles O10: the busy block settles the presented word as a refusal without decoding it. -/
theorem commandWhileBusyIsRefused : Obligations.CommandWhileBusyIsRefused := by
  constructor
  · intro i s hw hb
    obtain ⟨r, hf⟩ := busy_eq_true.mp hb
    exact exec_of_busy i hw hf
  · intro s w ws hw hb hr hp hprog
    obtain ⟨r, hf⟩ := busy_eq_true.mp hb
    have hne : (inputTaken s).program ≠ [] := by simp [hprog]
    rw [step, control_of_busy hw hr hf, busyAction_presented hp hne]

/-- The check of construction on SF and on FS is that the number offered is a positive integer. -/
theorem pos_den_one_iff_natCast {x : Rat} : 0 < x ∧ x.den = 1 ↔ ∃ m : Nat, 1 ≤ m ∧ x = m := by
  constructor
  · rintro ⟨hpos, hden⟩
    have hnum : 0 < x.num := Rat.num_pos.mpr hpos
    refine ⟨x.num.toNat, by omega, ?_⟩
    rw [← Int.cast_natCast, Int.toNat_of_nonneg hnum.le, Rat.coe_int_num_of_den_eq_one hden]
  · rintro ⟨m, hm, rfl⟩
    exact ⟨Nat.cast_pos.mpr hm, Rat.den_natCast m⟩

theorem configOffered_iff {bw sf fs : Rat} :
    ConfigOffered bw sf fs ↔ 0 < bw ∧ (∃ m : Nat, 1 ≤ m ∧ sf = m) ∧ (∃ k : Nat, 1 ≤ k ∧ fs = k) := by
  rw [← pos_den_one_iff_natCast, ← pos_den_one_iff_natCast]
  tauto

theorem step_of_not_wf {s : State} (h : ¬ s.cfg.WF) : step s = .refused .invalidConfig := by
  rw [step, control_of_not_wf h]

/-- Settles O13: an acceptable offer is what the check asks of its three numbers, and no step or command runs without
one. -/
theorem constructionChecksTheConfiguration : Obligations.ConstructionChecksTheConfiguration := by
  refine ⟨fun bw sf fs p hbw hsf hfs => construct_of_wf ⟨hbw, hsf, hfs⟩, fun bw sf fs p h => ?_,
    fun s h => ⟨step_of_not_wf h, fun i => exec_of_not_wf i h⟩⟩
  rw [construct, if_neg (mt configOffered_iff.mp h)]

end Sys2Proof.Machine

namespace Sys2Proof.Machine

/-! A symbol with a sink that fails (spec/60_exceptions.md R184 to R186). -/

/-- A sink that fails lets the block with a symbol in flight do what its policy says. -/
theorem step_of_fail {s : State} {r : InFlight} (hw : s.cfg.WF) (hf : s.flight = some r)
    (hidx : r.idx < nsamp s.cfg) (ha : s.SinkSays .fail) : step s = .next (stepFailed (inputTaken s) r) := by
  rw [step_of_flight hw hf ha]
  exact engine_eq_next_iff.mpr ⟨hidx, .inr (.inr ⟨rfl, rfl⟩)⟩

theorem stepFailed_of_halt {s : State} {r : InFlight} (hp : s.cfg.sinkFail = .haltSymbol) :
    stepFailed s r = endSymbol s true := by
  simp only [stepFailed, hp]

theorem stepFailed_of_continue {s : State} {r : InFlight} (hp : s.cfg.sinkFail = .continueSymbol) :
    stepFailed s r = stepAdvance s { r with sinkFailed := true } := by
  simp only [stepFailed, hp]

/-- A block that has taken `k` of the instants of `s` is in the instant of index `k`. -/
theorem inputNow_of_drop {s t : State} {k : Nat} (h : t.inputs = s.inputs.drop k) :
    inputNow t = s.inputs.getD k Input.quiet := by
  rw [inputNow, h, List.headD_eq_head?_getD, List.head?_drop, List.getD_eq_getElem?_getD]

/-- What holds of a quiet instant and of the first `n` in the list holds of each of the first `n` instants. -/
theorem getD_quiet_of_forall_take {P : Input → Prop} {l : List Input} {n k : Nat} (hquiet : P Input.quiet)
    (h : ∀ i ∈ l.take n, P i) (hk : k < n) : P (l.getD k Input.quiet) := by
  rw [List.getD_eq_getElem?_getD]
  cases hi : l[k]? with
  | none => exact hquiet
  | some i => exact h i (List.mem_iff_getElem?.mpr ⟨k, by rw [List.getElem?_take_of_lt hk, hi]⟩)

/-- Settles O46: after `k` quiet steps the failure ends the symbol under way with nothing written but its report. -/
theorem haltEndsTheSymbol : Obligations.HaltEndsTheSymbol := by
  intro s v b k hw hb hp hk hq hfail
  have hi := busy_eq_false.mp hb
  have hnow : inputNow (midSymbol s v b k) = { reset := false, present := false, sink := .fail } := by
    rw [inputNow_of_drop (s := s) rfl, List.getD_eq_getElem?_getD, hfail, Option.getD_some]
  have hsays : (midSymbol s v b k).SinkSays .fail := by simp [State.SinkSays, hnow]
  have hstep := step_of_fail (s := midSymbol s v b k) hw rfl hk hsays
  rw [stepFailed_of_halt (s := inputTaken (midSymbol s v b k)) hp] at hstep
  refine ⟨_, _, exec_synth_of_idle v b hw hi, ?_, ?_, fun v' b' =>
    ⟨_, exec_synth_of_idle (s := endSymbol (inputTaken (midSymbol s v b k)) true) v' b' hw rfl,
      beginSymbol_phase _ v' b'⟩⟩
  · rw [runFor_add k 1 (runFor_beginSymbol_mid v b hw hk hq), runFor_succ_of_next 0 hstep, runFor_zero]
  · simp [endSymbol, inputTaken, midSymbol, completionOf, hi]

/-! CONTINUE: the symbol under way with the pairs that were taken and the failure still to report. -/

/-- The pairs the sink takes of the first `k` STEPs of a symbol, in order, when it answers as the instants of `s`
say. -/
def takenSamples (s : State) (v : Int) (b : Bool) (k : Nat) : List Sample :=
  ((List.range k).filter fun j => decide ((s.inputs.getD j Input.quiet).sink = .accept)).map
    fun j => { theta := phaseAt s.cfg v b s.phase j }

/-- Whether the sink fails in one of the first `k` instants of `s`. -/
def sinkFailsWithin (s : State) (k : Nat) : Bool := decide (∃ i ∈ s.inputs.take k, i.sink = .fail)

/-- The in-flight registers as the STEP of index `k` reads them, with `failed` to report. -/
def flightAt (s : State) (v : Int) (b : Bool) (k : Nat) (failed : Bool) : InFlight :=
  { shift := shiftAt s.cfg v k, inv := b, idx := k, sinkFailed := failed }

/-- `s` after `k` instants of SYNTH `v`, `b` under CONTINUE, the symbol still in flight. -/
def continuedSymbol (s : State) (v : Int) (b : Bool) (k : Nat) : State :=
  { s with
    phase := phaseAt s.cfg v b s.phase k
    flight := some (flightAt s v b k (sinkFailsWithin s k))
    out := s.out ++ takenSamples s v b k
    inputs := s.inputs.drop k }

/-- The same when the sink has answered in the instant of index `k` and the phase has still to advance. -/
def continuedSymbolAnswered (s : State) (v : Int) (b : Bool) (k : Nat) : State :=
  { continuedSymbol s v b k with
    out := s.out ++ takenSamples s v b (k + 1)
    inputs := s.inputs.drop (k + 1) }

/-- `s` after all the instants of SYNTH `v`, `b` under CONTINUE. -/
def continuedSymbolDone (s : State) (v : Int) (b : Bool) : State :=
  { s with
    phase := phaseAt s.cfg v b s.phase (nsamp s.cfg)
    flight := none
    out := s.out ++ takenSamples s v b (nsamp s.cfg)
    returns := s.returns ++ [completionOf (sinkFailsWithin s (nsamp s.cfg))]
    inputs := s.inputs.drop (nsamp s.cfg) }

theorem takenSamples_succ (s : State) (v : Int) (b : Bool) (k : Nat) :
    takenSamples s v b (k + 1) = takenSamples s v b k ++
      if (s.inputs.getD k Input.quiet).sink = .accept then [{ theta := phaseAt s.cfg v b s.phase k }] else [] := by
  simp only [takenSamples, List.range_succ, List.filter_append, List.map_append, List.filter_singleton]
  by_cases ha : (s.inputs.getD k Input.quiet).sink = .accept
  · simp only [ha, decide_true, cond_true, if_true, List.map_singleton]
  · simp only [ha, decide_false, cond_false, if_false, List.map_nil]

theorem sinkFailsWithin_succ (s : State) (k : Nat) :
    sinkFailsWithin s (k + 1) = (sinkFailsWithin s k || decide ((s.inputs.getD k Input.quiet).sink = .fail)) := by
  rw [sinkFailsWithin, sinkFailsWithin, List.take_add_one, List.getD_eq_getElem?_getD, ← Bool.decide_or]
  cases hi : s.inputs[k]? with
  | none => simp [Input.quiet]
  | some i => simp [or_and_right, exists_or]

theorem beginSymbol_eq_continuedSymbol {s : State} (v : Int) (b : Bool) (hn : 0 < nsamp s.cfg) :
    beginSymbol s v b = continuedSymbol s v b 0 := by
  simp [beginSymbol_of_pos v b hn, continuedSymbol, flightAt, phaseAt, shiftAt, operandShift, takenSamples,
    sinkFailsWithin]

/-- A sink that takes the pair leaves it at the end of OUT. -/
theorem emit_continuedSymbol {s : State} {v : Int} {b : Bool} {k : Nat}
    (ha : (s.inputs.getD k Input.quiet).sink = .accept) :
    emit (inputTaken (continuedSymbol s v b k)) (stepSample (inputTaken (continuedSymbol s v b k))) =
      continuedSymbolAnswered s v b k := by
  rw [continuedSymbolAnswered, takenSamples_succ, if_pos ha]
  simp [emit, inputTaken, stepSample, continuedSymbol]

/-- Any other answer leaves OUT as it was. -/
theorem inputTaken_continuedSymbol {s : State} {v : Int} {b : Bool} {k : Nat}
    (ha : (s.inputs.getD k Input.quiet).sink ≠ .accept) :
    inputTaken (continuedSymbol s v b k) = continuedSymbolAnswered s v b k := by
  rw [continuedSymbolAnswered, takenSamples_succ, if_neg ha]
  simp [inputTaken, continuedSymbol]

/-- For `k` units of progress no reset and no command comes, and the sink takes the pair or fails. -/
abbrev State.SinkAnswersFor (s : State) (k : Nat) : Prop :=
  ∀ i ∈ s.inputs.take k, i.reset = false ∧ i.present = false ∧ i.sink ≠ .wait

section
variable {s : State} {v : Int} {b : Bool} {k : Nat} (hw : s.cfg.WF) (hp : s.cfg.sinkFail = .continueSymbol)
  (hs : s.SinkAnswersFor (nsamp s.cfg)) (hk : k < nsamp s.cfg)
include hw hp hs hk

/-- Whether the sink takes the pair or fails, the STEP goes on to everything after the `emit`. -/
theorem step_continuedSymbol :
    step (continuedSymbol s v b k) = .next (stepAdvance (continuedSymbolAnswered s v b k)
      (flightAt s v b k (sinkFailsWithin s (k + 1)))) := by
  have hnow : inputNow (continuedSymbol s v b k) = s.inputs.getD k Input.quiet := inputNow_of_drop rfl
  obtain ⟨hreset, hpresent, hwait⟩ := getD_quiet_of_forall_take (by decide) hs hk
  have hsays {a : SinkAnswer} (ha : (s.inputs.getD k Input.quiet).sink = a) : (continuedSymbol s v b k).SinkSays a :=
    ⟨hnow ▸ hreset, .inl (hnow ▸ hpresent), hnow ▸ ha⟩
  cases ha : (s.inputs.getD k Input.quiet).sink with
  | accept =>
    rw [step_of_accept (s := continuedSymbol s v b k) hw rfl hk (hsays ha), stepAccepted, emit_continuedSymbol ha,
      sinkFailsWithin_succ, ha]
    simp
  | wait => exact absurd ha hwait
  | fail =>
    have hnot : (s.inputs.getD k Input.quiet).sink ≠ .accept := by rw [ha]; decide
    rw [step_of_fail (s := continuedSymbol s v b k) hw rfl hk (hsays ha), inputTaken_continuedSymbol hnot,
      stepFailed_of_continue (s := continuedSymbolAnswered s v b k) hp, sinkFailsWithin_succ, ha]
    simp [flightAt]

theorem step_continuedSymbol_of_not_last (hmore : k + 1 ≠ nsamp s.cfg) :
    step (continuedSymbol s v b k) = .next (continuedSymbol s v b (k + 1)) := by
  rw [step_continuedSymbol hw hp hs hk]
  rcases stepAdvance_cases (continuedSymbolAnswered s v b k) (flightAt s v b k (sinkFailsWithin s (k + 1)))
    with ⟨-, h⟩ | ⟨hlast, -⟩
  · rw [h]
    rfl
  · exact absurd hlast hmore

theorem step_continuedSymbol_of_last (hlast : k + 1 = nsamp s.cfg) :
    step (continuedSymbol s v b k) = .next (continuedSymbolDone s v b) := by
  rw [step_continuedSymbol hw hp hs hk]
  rcases stepAdvance_cases (continuedSymbolAnswered s v b k) (flightAt s v b k (sinkFailsWithin s (k + 1)))
    with ⟨hmore, -⟩ | ⟨-, h⟩
  · exact absurd hlast hmore
  · rw [h, continuedSymbolDone, ← hlast]
    rfl

/-- Short of the last one, `k` steps under CONTINUE take a symbol from its start to `k`, whichever pairs fail. -/
theorem runFor_continuedSymbol : runFor k (continuedSymbol s v b 0) = .next (continuedSymbol s v b k) := by
  induction k with
  | zero => rfl
  | succ k ih =>
    have hk' : k < nsamp s.cfg := Nat.lt_of_succ_lt hk
    have hstep := step_continuedSymbol_of_not_last (v := v) (b := b) hw hp hs hk' hk.ne
    rw [runFor_add k 1 (ih hk'), runFor_succ_of_next 0 hstep, runFor_zero]

end

/-- NSAMP steps under CONTINUE end the symbol, whichever pairs fail. -/
theorem runFor_beginSymbol_of_continue {s : State} (v : Int) (b : Bool) (hw : s.cfg.WF)
    (hp : s.cfg.sinkFail = .continueSymbol) (hn : 0 < nsamp s.cfg) (hs : s.SinkAnswersFor (nsamp s.cfg)) :
    runFor (nsamp s.cfg) (beginSymbol s v b) = .next (continuedSymbolDone s v b) := by
  obtain ⟨k, hk⟩ := Nat.exists_eq_add_one.mpr hn
  have hk' : k < nsamp s.cfg := by omega
  have hlast := step_continuedSymbol_of_last (v := v) (b := b) hw hp hs hk' hk.symm
  rw [beginSymbol_eq_continuedSymbol v b hn, hk, runFor_add k 1 (runFor_continuedSymbol hw hp hs hk'),
    runFor_succ_of_next 0 hlast, runFor_zero]

/-- Settles O45: the sink's failures touch neither the phase nor the count of steps. -/
theorem continueIgnoresSinkFailures : Obligations.ContinueIgnoresSinkFailures := by
  intro s v b hw hb hp hn hs
  refine ⟨_, _, exec_synth_of_idle v b hw (busy_eq_false.mp hb), runFor_beginSymbol_of_continue v b hw hp hn hs,
    rfl, rfl, rfl, ?_⟩
  simp only [continuedSymbolDone, completionOf, sinkFailsWithin, decide_eq_true_eq]

end Sys2Proof.Machine

namespace Sys2Proof.Machine

/-! The hardware reset input (spec/70_reset_and_hazards.md R211, R212). -/

/-- Settles O11: the reset input is looked at before the flight and the program, and writes only the registers. -/
theorem hardwareResetAtAnyTime : Obligations.HardwareResetAtAnyTime := by
  intro s hw hr
  calc step s = .next (hardReset (inputTaken s)) := by rw [step, control_of_reset hw hr]
    _ = .next { s with phase := 0, flight := none, inputs := s.inputs.tail } := rfl

end Sys2Proof.Machine

namespace Sys2Proof

/-! Words of the spec's tables (spec/30_encoding.md section 9, spec/95_test_vectors.md V18). -/

/-- A word of neither row of R73 spells no command. -/
theorem decode_instr?_eq_none {w : Word32} (hr : w ≠ 0x10000000#32) (hs : synthRowField w ≠ 0b0010000#7) :
    (decode w).instr? = none := by
  rw [decode_of_neither_row hr hs, Decoded.instr?]

/-- Settles O1: a SYNTH word is read by its three fields, and a reserved word misses both rows. -/
theorem specWordsDecode : Obligations.SpecWordsDecode :=
  ⟨decode_eq_reset_iff.mpr rfl,
    decode_eq_synth_iff.mpr (by decide), decode_eq_synth_iff.mpr (by decide), decode_eq_synth_iff.mpr (by decide),
    decode_instr?_eq_none (by decide) (by decide), decode_instr?_eq_none (by decide) (by decide),
    decode_instr?_eq_none (by decide) (by decide), decode_instr?_eq_none (by decide) (by decide),
    decode_instr?_eq_none (by decide) (by decide), decode_instr?_eq_none (by decide) (by decide)⟩

end Sys2Proof

namespace Sys2Proof.Machine

/-! The document's configuration (spec/95_test_vectors.md V1, V2, V3, V7). -/

/-- FS = 8 × BW, so that NSAMP is 8 × N. -/
theorem nsamp_documentExample : nsamp Config.documentExample = 2048 :=
  nsamp_of_ratio (m := 8) documentExample_nonNegFreq.1 (by norm_num [Config.documentExample])

theorem freqBase_documentExample (x : Rat) : freqBase Config.documentExample x = 125000 * x / 256 := by
  norm_num [freqBase, Config.documentExample]

theorem foff_documentExample : foff Config.documentExample = 187500 := by
  norm_num [foff, Config.documentExample]

theorem freqPre_documentExample_up : freqPre Config.documentExample false 32 = 15625 := by
  rw [freqPre_false, freqBase_documentExample]
  norm_num

/-- At shift 0 the down-chirp stands at the bandwidth itself. -/
theorem freqPre_documentExample_down : freqPre Config.documentExample true 0 = 125000 := by
  rw [freqPre_true, freqBase_documentExample]
  norm_num [Config.documentExample]

/-- Settles O30: FOFF = 187500 Hz added to either frequency before the offset. -/
theorem documentFrequencies : Obligations.DocumentFrequencies := by
  refine ⟨nsamp_documentExample, freqPre_documentExample_up, ?_, freqPre_documentExample_down, ?_⟩
  · rw [freqInst, freqPre_documentExample_up, foff_documentExample]
    norm_num
  · rw [freqInst, freqPre_documentExample_down, foff_documentExample]
    norm_num

end Sys2Proof.Machine
